-- ==== Sys2Proof/Word.lean ====
section
/-! DEFINITION. The words of the block (00_scope.md R7, R11; 30_encoding.md R60): a byte, a 128-bit address, a command word. -/

namespace Sys2Proof

/-- One byte. In-byte bit 7 is the most significant (00_scope.md R10(b)). -/
abbrev Byte := BitVec 8

/-- The contents of a 16-byte address buffer: byte 0 is the most significant byte, and address bit `k` is register bit
`127 - k`, so it is `v.getMsbD k` (00_scope.md R10(a), R11; 20_memory.md R40, R41). -/
abbrev Addr := BitVec 128

/-- One command word (30_encoding.md R60). -/
abbrev CmdWord := BitVec 32

end Sys2Proof
end

