-- ==== Sys2Proof/Syntax.lean ====
section
/-! DEFINITION. The nine commands of the opcode map (30_encoding.md R63), one constructor per row of spec/opcode_table.json.
The fields an opcode does not use have no effect (R65), so they are no part of a command. -/

namespace Sys2Proof

/-- A command, with the operands its word carries. `bit` is CMD.BIT and `nb` is CMD.NB, both unsigned and never scaled
(30_encoding.md R61, R62); offset arithmetic on them is on unbounded non-negative integers (00_scope.md R12), so they are `Nat`,
and `Instr.wf` says which values a word can hold. DEDUCED, log entry 15, safe. -/
inductive Instr where
  /-- EXTRACT, OPC 0x1: `startBit` and `lengthBytes` (40_bitwindow.md R100). -/
  | extract (bit nb : Nat)
  /-- INSERT, OPC 0x2: `endBit` and the payload length (40_bitwindow.md R105). -/
  | insert (bit nb : Nat)
  /-- ARGS_PACK, OPC 0x3 (41_argsmob.md R120). -/
  | argsPack
  /-- ARGS_UNPACK, OPC 0x4 (41_argsmob.md R122). -/
  | argsUnpack
  /-- DST_ENCODE, OPC 0x5 (42_dst.md R140). -/
  | dstEncode
  /-- DST_DECODE, OPC 0x6: `prefixLength` (42_dst.md R145). -/
  | dstDecode (bit : Nat)
  /-- SRC_ENCODE, OPC 0x7 (43_src.md R160). -/
  | srcEncode
  /-- SRC_DECODE_BASIC, OPC 0x8: `prefixLength` (43_src.md R165). -/
  | srcDecodeBasic (bit : Nat)
  /-- SRC_DECODE_VENDOR, OPC 0x9 (43_src.md R168). -/
  | srcDecodeVendor
  deriving DecidableEq, Repr

end Sys2Proof
end

