-- ==== Sys2Proof/WellFormed.lean ====
section
/-! DEFINITION. Which commands a command word can hold: the operand ranges of 30_encoding.md R60, R61, R62 and R68. -/

namespace Sys2Proof

/-- BIT is 8 bits wide, so it holds 0 to 255 (30_encoding.md R61, R68). -/
def bitFits (b : Nat) : Bool := decide (b < 256)

/-- NB is 5 bits wide, so it holds 0 to 31 (30_encoding.md R62, R68). -/
def nbFits (n : Nat) : Bool := decide (n < 32)

/-- A command that one command word encodes: "`b` must be 0 to 255 and `n` 0 to 31; an assembler refuses any other value"
(30_encoding.md R68). -/
def Instr.wf : Instr → Bool
  | .extract b n => bitFits b && nbFits n
  | .insert b n => bitFits b && nbFits n
  | .argsPack => true
  | .argsUnpack => true
  | .dstEncode => true
  | .dstDecode b => bitFits b
  | .srcEncode => true
  | .srcDecodeBasic b => bitFits b
  | .srcDecodeVendor => true

end Sys2Proof
end

