-- ==== Sys2Proof/Decode.lean ====
section
/-! DEFINITION. The command word (30_encoding.md R60 to R67): its fields, the decoder, total on every word and rejecting by name,
the encoder, and the opcode table's masks and matches. -/

namespace Sys2Proof

/-- RSV1 = CMD[31:21] (30_encoding.md R60). -/
def fieldRsv1 (w : CmdWord) : BitVec 11 := w.extractLsb' 21 11

/-- NB = CMD[20:16] (30_encoding.md R60). -/
def fieldNb (w : CmdWord) : BitVec 5 := w.extractLsb' 16 5

/-- BIT = CMD[15:8] (30_encoding.md R60). -/
def fieldBit (w : CmdWord) : BitVec 8 := w.extractLsb' 8 8

/-- RSV0 = CMD[7:4] (30_encoding.md R60). -/
def fieldRsv0 (w : CmdWord) : BitVec 4 := w.extractLsb' 4 4

/-- OPC = CMD[3:0] (30_encoding.md R60). -/
def fieldOpc (w : CmdWord) : BitVec 4 := w.extractLsb' 0 4

/-- Why a command word is illegal (30_encoding.md R64). Each of them executes as `fail ILLEGAL_CMD`. -/
inductive DecodeError where
  /-- RSV1 is not 0. -/
  | rsv1NotZero
  /-- RSV0 is not 0. -/
  | rsv0NotZero
  /-- OPC is 0x0 or one of 0xA to 0xF. -/
  | opcodeUnassigned
  deriving DecidableEq, Repr

/-- The command of a legal opcode and its operand fields (30_encoding.md R63, R66): BIT and NB are zero extended (R61, R62), and
a field the opcode does not use is dropped (R65). -/
def decodeOpcode (opc bit nb : Nat) : Except DecodeError Instr :=
  match opc with
  | 1 => .ok (.extract bit nb)
  | 2 => .ok (.insert bit nb)
  | 3 => .ok .argsPack
  | 4 => .ok .argsUnpack
  | 5 => .ok .dstEncode
  | 6 => .ok (.dstDecode bit)
  | 7 => .ok .srcEncode
  | 8 => .ok (.srcDecodeBasic bit)
  | 9 => .ok .srcDecodeVendor
  | _ => .error .opcodeUnassigned

/-- The decoder, in the order of 30_encoding.md R66: the reserved fields first, then the opcode. -/
def decode (w : CmdWord) : Except DecodeError Instr :=
  if fieldRsv1 w ≠ 0 then .error .rsv1NotZero
  else if fieldRsv0 w ≠ 0 then .error .rsv0NotZero
  else decodeOpcode (fieldOpc w).toNat (fieldBit w).toNat (fieldNb w).toNat

/-- The opcode of a command (30_encoding.md R63). -/
def Instr.opc : Instr → BitVec 4
  | .extract _ _ => 1
  | .insert _ _ => 2
  | .argsPack => 3
  | .argsUnpack => 4
  | .dstEncode => 5
  | .dstDecode _ => 6
  | .srcEncode => 7
  | .srcDecodeBasic _ => 8
  | .srcDecodeVendor => 9

/-- The BIT field an assembler writes: the operand, or 0 where the opcode ignores BIT (30_encoding.md R68). -/
def Instr.bitField : Instr → BitVec 8
  | .extract b _ => BitVec.ofNat 8 b
  | .insert b _ => BitVec.ofNat 8 b
  | .argsPack => 0
  | .argsUnpack => 0
  | .dstEncode => 0
  | .dstDecode b => BitVec.ofNat 8 b
  | .srcEncode => 0
  | .srcDecodeBasic b => BitVec.ofNat 8 b
  | .srcDecodeVendor => 0

/-- The NB field an assembler writes: the operand, or 0 where the opcode ignores NB (30_encoding.md R68). -/
def Instr.nbField : Instr → BitVec 5
  | .extract _ n => BitVec.ofNat 5 n
  | .insert _ n => BitVec.ofNat 5 n
  | .argsPack => 0
  | .argsUnpack => 0
  | .dstEncode => 0
  | .dstDecode _ => 0
  | .srcEncode => 0
  | .srcDecodeBasic _ => 0
  | .srcDecodeVendor => 0

/-- The pattern `00000000000nnnnnbbbbbbbb0000oooo` of 30_encoding.md R60. -/
def packFields (nb : BitVec 5) (bit : BitVec 8) (opc : BitVec 4) : CmdWord :=
  0#11 ++ nb ++ bit ++ 0#4 ++ opc

/-- The word of a well-formed command, as an assembler emits it (30_encoding.md R68). -/
def encode (i : Instr) : CmdWord := packFields i.nbField i.bitField i.opc

/-- "for every legal opcode, the decode mask is `0xFFE000FF`" (30_encoding.md R65). -/
def decodeMask : CmdWord := 0xFFE000FF

/-- The bits of a word that its command depends on: the decode mask and the fields the opcode uses (30_encoding.md R63, R65). -/
def Instr.usedMask : Instr → CmdWord
  | .extract _ _ => 0xFFFFFFFF
  | .insert _ _ => 0xFFFFFFFF
  | .argsPack => 0xFFE000FF
  | .argsUnpack => 0xFFE000FF
  | .dstEncode => 0xFFE000FF
  | .dstDecode _ => 0xFFE0FFFF
  | .srcEncode => 0xFFE000FF
  | .srcDecodeBasic _ => 0xFFE0FFFF
  | .srcDecodeVendor => 0xFFE000FF

/-- The word of an opcode-table row as the table numbers its bits: one 32-bit word, the bits above `nbits` zero
(30_encoding.md R60, R67). DESIGN CHOICE, log entry 5, safe. -/
def tableWord (nbits w : Nat) : Nat := w % 2 ^ nbits % 2 ^ 32

/-- What the decoder reads from an instruction whose bits are `w`; `none` where it refuses. -/
def decodeTableWord (nbits w : Nat) : Option Instr :=
  match decode (BitVec.ofNat 32 (tableWord nbits w)) with
  | .ok i => some i
  | .error _ => none

end Sys2Proof
end

