-- ==== Sys2Proof/Machine/State.lean ====
section
/-! DEFINITION. The state of the block: the 14 registers of 10_state.md R20, and beside them the two lists through which the model
meets the world outside the block. All of it is plain data. -/

namespace Sys2Proof.Machine

/-- One event at the block's ports: the host's two operations (20_memory.md R46) and the reset input (70_reset_and_hazards.md R230).
`id` is the 5-bit register number REGID (10_state.md R20). A written value is an unsigned integer (00_scope.md R11); the
interface carries exactly the width of the register it names. -/
inductive Input where
  /-- The platform asserts the reset input. -/
  | reset
  /-- `HostRead(id)`. -/
  | read (id : BitVec 5)
  /-- `HostWrite(id, value)`. -/
  | write (id : BitVec 5) (value : Nat)
  deriving DecidableEq, Repr

/-- The value one HostRead returned, with the register number it named (20_memory.md R46). -/
structure Answer where
  id : BitVec 5
  value : Nat
  deriving DecidableEq, Repr

/-- The 14 host-visible registers (10_state.md R20), and the model's own `input` and `readLog` (DESIGN CHOICE, log entries 1 and 2,
safe), which are no state of the block: "There is no hidden state" (10_state.md R35). No memory: DEDUCED, log entry 3, safe. STATUS
whole: DEDUCED, log entry 11, safe. -/
structure State where
  cmd : BitVec 32
  status : BitVec 8
  buf : BitVec 128
  din : BitVec 128
  dout : BitVec 128
  pfx : BitVec 128
  plen : BitVec 8
  ipv4 : BitVec 32
  port : BitVec 16
  args : BitVec 40
  qfi : BitVec 6
  rf : BitVec 1
  uf : BitVec 1
  pduid : BitVec 32
  input : List Input
  readLog : List Answer
  deriving DecidableEq, Repr

/-- The names of the 14 registers (10_state.md R20). -/
inductive Reg where
  | cmd | status | buf | din | dout | pfx | plen | ipv4 | port | args | qfi | rf | uf | pduid
  deriving DecidableEq, Repr

/-- Reasons for the block to stop with a fault. There is none: "It does not change the flow of the host, stop the block, or lock out
later commands" (60_exceptions.md R200), and "Trap entry does not exist" (R207). DEDUCED, log entry 6, safe. -/
inductive Fault where
  deriving DecidableEq, Repr

/-- Reasons for the model to have no meaning for a step. -/
inductive Refusal where
  /-- An instruction whose arm of `exec` has no meaning yet. Raised by no arm. Safe. -/
  | notModelled (mnemonic : String)
  /-- Raised by a HostWrite whose value is wider than the register it names: "The interface carries exactly the register's width",
  treatment `refuse` (93_implementation_defined.md I16). DEDUCED, log entry 4. Safe: the model stops. -/
  | valueWiderThanRegister
  deriving DecidableEq, Repr

/-- The machine after reset: every register 0, "CODE = OK, STICKY = 0" (10_state.md R20; 70_reset_and_hazards.md R230), and no access
made yet (DESIGN CHOICE, log entries 1 and 2, safe). -/
def State.reset : State where
  cmd := 0
  status := 0
  buf := 0
  din := 0
  dout := 0
  pfx := 0
  plen := 0
  ipv4 := 0
  port := 0
  args := 0
  qfi := 0
  rf := 0
  uf := 0
  pduid := 0
  input := []
  readLog := []

end Sys2Proof.Machine
end

