-- ==== Sys2Proof/Machine/Flags.lean ====
section
/-! DEFINITION. The status register (10_state.md R22) and the error kinds it reports (60_exceptions.md R201): the only flags the block
has (10_state.md R34). -/

namespace Sys2Proof.Machine

/-- The error kinds (60_exceptions.md R201). -/
inductive ErrKind where
  /-- "input buffer smaller than the minimum bytes required": never raised in this block (R202). -/
  | tooShortToParse
  /-- "output buffer too small to receive the encoded field at the computed offset". -/
  | tooShortToMarshal
  /-- "requested bit window … would exceed the 128-bit address boundary, or a derived field … has no room". -/
  | outOfRange
  /-- "the prefix's bit-length is invalid". -/
  | prefixLength
  /-- An illegal command word (30_encoding.md R64). -/
  | illegalCmd
  deriving DecidableEq, Repr

/-- STATUS.CODE of an error kind (60_exceptions.md R201). -/
def ErrKind.code : ErrKind → BitVec 3
  | .tooShortToParse => 1
  | .tooShortToMarshal => 2
  | .outOfRange => 3
  | .prefixLength => 4
  | .illegalCmd => 5

/-- STATUS.CODE of success (60_exceptions.md R201). -/
def codeOk : BitVec 3 := 0

/-- The error kind a code of 1 to 5 names; `none` for OK and for the codes 6 and 7, which are never produced
(60_exceptions.md R201). -/
def ErrKind.ofCode (c : BitVec 3) : Option ErrKind :=
  match c.toNat with
  | 1 => some .tooShortToParse
  | 2 => some .tooShortToMarshal
  | 3 => some .outOfRange
  | 4 => some .prefixLength
  | 5 => some .illegalCmd
  | _ => none

/-- CODE = STATUS[2:0] (10_state.md R22). -/
def statusCode (st : BitVec 8) : BitVec 3 := st.extractLsb' 0 3

/-- STATUS[6:3], reserved (10_state.md R22). -/
def statusReserved (st : BitVec 8) : BitVec 4 := st.extractLsb' 3 4

/-- STICKY = STATUS[7] (10_state.md R22). -/
def statusSticky (st : BitVec 8) : Bool := st.getLsbD 7

/-- What a HostRead of STATUS gives: "STATUS[6:3] is reserved and reads as 0" (10_state.md R22). DEDUCED, log entry 11,
safe. -/
def statusRead (st : BitVec 8) : BitVec 8 := st &&& 0x87

/-- `STATUS[2:0] <- code(k)` and `STATUS[7] <- 1` (60_exceptions.md R203). -/
def statusAfterFail (st : BitVec 8) (k : ErrKind) : BitVec 8 := 1#1 ++ statusReserved st ++ k.code

/-- `STATUS[2:0] <- 0`, STATUS[7] unchanged (60_exceptions.md R204). -/
def statusAfterCommit (st : BitVec 8) : BitVec 8 := st.extractLsb' 7 1 ++ statusReserved st ++ codeOk

/-- A HostWrite of STATUS: "if value[7] = 1, STATUS[7] becomes 0. No other bit changes" (20_memory.md R46). -/
def statusAfterWrite (st v : BitVec 8) : BitVec 8 := if v.getLsbD 7 then st &&& 0x7F else st

end Sys2Proof.Machine
end

