-- ==== Sys2Proof/Machine/Ops.lean ====
section
/-! DEFINITION. The named operations over the registers: the register map (10_state.md R20), reading and storing one register
(20_memory.md R46), the end of a command in `fail` or `commit` (60_exceptions.md R203, R204), and reset (70_reset_and_hazards.md R230).
`fail` is all the block has in place of taking an exception, and there is no return from one (60_exceptions.md R207, R208). -/

namespace Sys2Proof.Machine

/-- REGID of each register (10_state.md R20). -/
def Reg.id : Reg → BitVec 5
  | .cmd => 0x00
  | .status => 0x01
  | .buf => 0x02
  | .din => 0x03
  | .dout => 0x04
  | .pfx => 0x05
  | .plen => 0x06
  | .ipv4 => 0x07
  | .port => 0x08
  | .args => 0x09
  | .qfi => 0x0A
  | .rf => 0x0B
  | .uf => 0x0C
  | .pduid => 0x0D

/-- The register a number names; `none` for the reserved numbers 0x0E to 0x1F (10_state.md R20, R33). -/
def Reg.ofId (id : BitVec 5) : Option Reg :=
  match id.toNat with
  | 0x00 => some .cmd
  | 0x01 => some .status
  | 0x02 => some .buf
  | 0x03 => some .din
  | 0x04 => some .dout
  | 0x05 => some .pfx
  | 0x06 => some .plen
  | 0x07 => some .ipv4
  | 0x08 => some .port
  | 0x09 => some .args
  | 0x0A => some .qfi
  | 0x0B => some .rf
  | 0x0C => some .uf
  | 0x0D => some .pduid
  | _ => none

/-- The width of each register (10_state.md R20). -/
def Reg.width : Reg → Nat
  | .cmd => 32
  | .status => 8
  | .buf => 128
  | .din => 128
  | .dout => 128
  | .pfx => 128
  | .plen => 8
  | .ipv4 => 32
  | .port => 16
  | .args => 40
  | .qfi => 6
  | .rf => 1
  | .uf => 1
  | .pduid => 32

/-- `reg(X)`, the value a HostRead of X returns, as an unsigned integer (00_scope.md R11, R12; 20_memory.md R46). -/
def readReg (r : Reg) (s : State) : Nat :=
  match r with
  | .cmd => s.cmd.toNat
  | .status => (statusRead s.status).toNat
  | .buf => s.buf.toNat
  | .din => s.din.toNat
  | .dout => s.dout.toNat
  | .pfx => s.pfx.toNat
  | .plen => s.plen.toNat
  | .ipv4 => s.ipv4.toNat
  | .port => s.port.toNat
  | .args => s.args.toNat
  | .qfi => s.qfi.toNat
  | .rf => s.rf.toNat
  | .uf => s.uf.toNat
  | .pduid => s.pduid.toNat

/-- What a HostWrite of `v` does to the register it names (20_memory.md R46): STATUS is write-1-to-clear on bit 7 only, DOUT
ignores the write, every other register takes the value. The command that a write of CMD runs is `runCommand`'s. -/
def storeReg (r : Reg) (v : Nat) (s : State) : State :=
  match r with
  | .cmd => { s with cmd := BitVec.ofNat 32 v }
  | .status => { s with status := statusAfterWrite s.status (BitVec.ofNat 8 v) }
  | .buf => { s with buf := BitVec.ofNat 128 v }
  | .din => { s with din := BitVec.ofNat 128 v }
  | .dout => s
  | .pfx => { s with pfx := BitVec.ofNat 128 v }
  | .plen => { s with plen := BitVec.ofNat 8 v }
  | .ipv4 => { s with ipv4 := BitVec.ofNat 32 v }
  | .port => { s with port := BitVec.ofNat 16 v }
  | .args => { s with args := BitVec.ofNat 40 v }
  | .qfi => { s with qfi := BitVec.ofNat 6 v }
  | .rf => { s with rf := BitVec.ofNat 1 v }
  | .uf => { s with uf := BitVec.ofNat 1 v }
  | .pduid => { s with pduid := BitVec.ofNat 32 v }

/-- `fail k`: CODE and STICKY are written and nothing else (60_exceptions.md R203). -/
def fail (k : ErrKind) (s : State) : Host.Outcome State Fault Refusal :=
  .next { s with status := statusAfterFail s.status k }

/-- The end of `commit`: `t` is the state with every listed register written, and then `STATUS[2:0] <- 0`
(60_exceptions.md R204). -/
def commit (t : State) : Host.Outcome State Fault Refusal :=
  .next { t with status := statusAfterCommit t.status }

/-- Reset of the block: every register takes its reset value, and no command runs (70_reset_and_hazards.md R230). What the
host has yet to do and what it has read are the host's, and stay (DEDUCED, log entry 13, safe). -/
def resetBlock (s : State) : State := { State.reset with input := s.input, readLog := s.readLog }

end Sys2Proof.Machine
end

