-- ==== Sys2Proof/Machine/ArgsMob.lean ====
section
/-! DEFINITION. The mobility-session argument codec (41_argsmob.md): `args_ser`, `args_de`, ARGS_PACK and ARGS_UNPACK. -/

namespace Sys2Proof.Machine

/-- `args_ser(q, r, u, id)`: QFI in bits 7-2 of byte 0, R in bit 1, U in bit 0, then the ID big-endian
(41_argsmob.md R121, R123; 90_conflicts.md C8). -/
def argsSer (q : BitVec 6) (r u : BitVec 1) (id : BitVec 32) : BitVec 40 :=
  ((q.setWidth 8 <<< 2) ||| (r.setWidth 8 <<< 1) ||| u.setWidth 8) ++ id

/-- `args_de(a) = (a[39:34], a[33], a[32], a[31:0])` (41_argsmob.md R123). -/
def argsDe (a : BitVec 40) : BitVec 6 × BitVec 1 × BitVec 1 × BitVec 32 :=
  (a.extractLsb' 34 6, a.extractLsb' 33 1, a.extractLsb' 32 1, a.extractLsb' 0 32)

/-- The argument block that the field registers hold, serialized (41_argsmob.md R120; 42_dst.md R140). -/
def argsBlock (s : State) : BitVec 40 := argsSer s.qfi s.rf s.uf s.pduid

/-- The state with the four field registers taken from a 40-bit block (41_argsmob.md R122; 42_dst.md R145). -/
def setArgsFields (a : BitVec 40) (s : State) : State :=
  { s with qfi := (argsDe a).1, rf := (argsDe a).2.1, uf := (argsDe a).2.2.1, pduid := (argsDe a).2.2.2 }

/-- ARGS_PACK (41_argsmob.md R120). -/
def execArgsPack (s : State) : Host.Outcome State Fault Refusal :=
  commit { s with args := argsBlock s }

/-- ARGS_UNPACK (41_argsmob.md R122). -/
def execArgsUnpack (s : State) : Host.Outcome State Fault Refusal :=
  commit (setArgsFields s.args s)

end Sys2Proof.Machine
end

