-- ==== Sys2Proof/Machine/Bits.lean ====
section
/-! DEFINITION. The pseudocode primitives of 00_scope.md R12 on bytes and 128-bit values. -/

namespace Sys2Proof.Machine

/-- `byte(v, i) = v[127-8i : 120-8i]`, for `i` from 0 to 15 (00_scope.md R12; 20_memory.md R40). DESIGN CHOICE, log entry 10, safe: what the
expression is outside that range, which no command reaches. -/
def byte (v : Addr) (i : Nat) : Byte := v.extractLsb' (120 - 8 * i) 8

/-- `v` with byte `i` replaced by `x`, for `i` from 0 to 15: the assignment `b[i] <- x` of 40_bitwindow.md R106. DESIGN CHOICE, log
entry 10, safe: outside that range. -/
def setByte (v : Addr) (i : Nat) (x : Byte) : Addr :=
  (v &&& ~~~(0xFF#128 <<< (120 - 8 * i))) ||| (x.setWidth 128 <<< (120 - 8 * i))

/-- `be_n(b0 .. b(n-1))` at width `w`: the value whose most significant byte is the first of the list (00_scope.md R12). -/
def be (w : Nat) (l : List Byte) : BitVec w :=
  l.foldl (fun acc x => (acc <<< 8) ||| x.setWidth w) 0

/-- `bytes_n(v)`: the `n` bytes of an `8n`-bit value, most significant first (00_scope.md R12). -/
def bytesOf {w : Nat} (n : Nat) (v : BitVec w) : List Byte :=
  (List.range n).map fun i => v.extractLsb' (8 * (n - 1 - i)) 8

/-- `ones(n) = 2^n - 1` (00_scope.md R12). -/
def ones (n : Nat) : Nat := 2 ^ n - 1

/-- `mask128(v, L)`: keeps address bits `0 .. L-1` and zeroes the rest (00_scope.md R12). -/
def mask128 (v : Addr) (len : Nat) : Addr := v &&& BitVec.ofNat 128 (ones len <<< (128 - len))

/-- `ceil(a / 8) = (a + 7) div 8` (00_scope.md R12). -/
def ceilDiv8 (a : Nat) : Nat := (a + 7) / 8

end Sys2Proof.Machine
end

