-- ==== Sys2Proof/Machine/Operands.lean ====
section
/-! DEFINITION. The operand forms: what a command reads beside the fields of its word (the "Operands" line of each command's rule). -/

namespace Sys2Proof.Machine

/-- INSERT's payload: byte `i` is `byte(DIN, i)` for `i < n` (10_state.md R24; 40_bitwindow.md R105). -/
def payload (s : State) (n : Nat) : List Byte := (List.range n).map (byte s.din)

/-- The encoders' prefix length: PLEN, zero extended (42_dst.md R140; 43_src.md R160). -/
def prefixLen (s : State) : Nat := s.plen.toNat

/-- The encoders' base: the canonical prefix `mask128(PFX, PLEN)`, never PFX itself (42_dst.md R142). -/
def prefixBase (s : State) : Addr := mask128 s.pfx (prefixLen s)

/-- The IPv4 payload, `bytes_4(IPV4)` (10_state.md R28). -/
def ipv4Bytes (s : State) : List Byte := bytesOf 4 s.ipv4

/-- The port, `bytes_2(PORT)`, big-endian (10_state.md R29). -/
def portBytes (s : State) : List Byte := bytesOf 2 s.port

/-- The self-encoded prefix length of a vendor address: byte 15 masked with 0x7F (43_src.md R168). -/
def vendorLen (v : Addr) : Nat := (byte v 15 &&& 0x7F#8).toNat

end Sys2Proof.Machine
end

