-- ==== Sys2Proof/Machine/BitWindow.lean ====
section
/-! DEFINITION. The bit-window codec (40_bitwindow.md): the functions `ext` and `app`, and the commands EXTRACT and INSERT. -/

namespace Sys2Proof.Machine

/-- Output byte `i` of `ext`: byte `sB + i` on the aligned path, else that byte shifted left by `o` with the high bits of the
next byte ORed in (40_bitwindow.md R101). -/
def extByte (buf : Addr) (s i : Nat) : Byte :=
  if s % 8 = 0 then byte buf (s / 8 + i)
  else (byte buf (s / 8 + i) <<< (s % 8)) ||| (byte buf (s / 8 + i + 1) >>> (8 - s % 8))

/-- `ext(buf, s, n)`, the source's `extract` (40_bitwindow.md R101). -/
def ext (buf : Addr) (s n : Nat) : Except ErrKind (List Byte) :=
  if s + 8 * n > 128 then .error .outOfRange
  else .ok ((List.range n).map (extByte buf s))

/-- One turn of `app`'s loop at byte `k`: a plain copy on the aligned path (`o = 0`), else an OR into bytes `k` and `k + 1`
(40_bitwindow.md R106; 90_conflicts.md C1). -/
def appByte (o : Nat) (b : Addr) (k : Nat) (x : Byte) : Addr :=
  if o = 0 then setByte b k x
  else
    let b1 := setByte b k (byte b k ||| (x >>> o))
    setByte b1 (k + 1) (byte b1 (k + 1) ||| (x <<< (8 - o)))

/-- `app`'s loop over the payload, from byte `k` on (40_bitwindow.md R106). -/
def appLoop (o : Nat) : Addr → Nat → List Byte → Addr
  | b, _, [] => b
  | b, k, x :: p => appLoop o (appByte o b k x) (k + 1) p

/-- `app(buf, e, p)`, the source's `append` (40_bitwindow.md R106). -/
def app (buf : Addr) (e : Nat) (p : List Byte) : Except ErrKind Addr :=
  if ceilDiv8 e + p.length > 16 then .error .tooShortToMarshal
  else .ok (appLoop (e % 8) buf (e / 8) p)

/-- EXTRACT (40_bitwindow.md R100): the window of BUF goes to DOUT, left-justified, the rest of DOUT is 0. -/
def execExtract (bit nb : Nat) (s : State) : Host.Outcome State Fault Refusal :=
  match ext s.buf bit nb with
  | .error k => fail k s
  | .ok out => commit { s with dout := be 128 (out ++ List.replicate (16 - nb) 0) }

/-- INSERT (40_bitwindow.md R105): the bound is checked before DIN is read, since NB may exceed 16. -/
def execInsert (bit nb : Nat) (s : State) : Host.Outcome State Fault Refusal :=
  if ceilDiv8 bit + nb > 16 then fail .tooShortToMarshal s
  else
    match app s.buf bit (payload s nb) with
    | .error k => fail k s
    | .ok b => commit { s with buf := b }

end Sys2Proof.Machine
end

