-- ==== Sys2Proof/Machine/Dst.lean ====
section
/-! DEFINITION. The destination-address codec (42_dst.md): DST_ENCODE and DST_DECODE. -/

namespace Sys2Proof.Machine

/-- DST_ENCODE (42_dst.md R140): PREFIX_LENGTH first, then the IPv4 append, then the argument-block append; BUF is written only
when both succeed (60_exceptions.md R203). -/
def execDstEncode (s : State) : Host.Outcome State Fault Refusal :=
  if prefixLen s > 128 then fail .prefixLength s
  else
    match app (prefixBase s) (prefixLen s) (ipv4Bytes s) with
    | .error k => fail k s
    | .ok b1 =>
      match app b1 (prefixLen s + 32) (bytesOf 5 (argsBlock s)) with
      | .error k => fail k s
      | .ok b2 => commit { s with buf := b2 }

/-- DST_DECODE (42_dst.md R145): the IPv4 window, then the argument-block window; the canonical prefix is taken at commit. -/
def execDstDecode (bit : Nat) (s : State) : Host.Outcome State Fault Refusal :=
  match ext s.buf bit 4 with
  | .error k => fail k s
  | .ok r1 =>
    match ext s.buf (bit + 32) 5 with
    | .error k => fail k s
    | .ok r2 =>
      commit (setArgsFields (be 40 r2)
        { s with pfx := mask128 s.buf bit, plen := BitVec.ofNat 8 bit, ipv4 := be 32 r1 })

end Sys2Proof.Machine
end

