-- ==== Sys2Proof/Machine/Src.lean ====
section
/-! DEFINITION. The source-address codec (43_src.md): SRC_ENCODE, SRC_DECODE_BASIC and SRC_DECODE_VENDOR. -/

namespace Sys2Proof.Machine

/-- The trailer write: in-byte bits 6 to 0 of byte 15 become `L[6:0]`, bit 7 is kept (43_src.md R162; 90_conflicts.md C4). -/
def setTrailer (b : Addr) (len : Nat) : Addr :=
  (b &&& ~~~(0x7F#128)) ||| (BitVec.ofNat 7 len).setWidth 128

/-- SRC_ENCODE (43_src.md R160): PREFIX_LENGTH first, then the IPv4 append, then the port append, and last the trailer. -/
def execSrcEncode (s : State) : Host.Outcome State Fault Refusal :=
  if prefixLen s > 128 then fail .prefixLength s
  else
    match app (prefixBase s) (prefixLen s) (ipv4Bytes s) with
    | .error k => fail k s
    | .ok b1 =>
      match app b1 (prefixLen s + 32) (portBytes s) with
      | .error k => fail k s
      | .ok b2 => commit { s with buf := setTrailer b2 (prefixLen s) }

/-- SRC_DECODE_BASIC (43_src.md R165): zero length first, then range; the port is left 0. -/
def execSrcDecodeBasic (bit : Nat) (s : State) : Host.Outcome State Fault Refusal :=
  if bit = 0 then fail .prefixLength s
  else if bit + 32 > 128 then fail .outOfRange s
  else
    match ext s.buf bit 4 with
    | .error k => fail k s
    | .ok r1 =>
      commit { s with pfx := mask128 s.buf bit, plen := BitVec.ofNat 8 bit, ipv4 := be 32 r1, port := 0 }

/-- SRC_DECODE_VENDOR (43_src.md R168): the length comes from BUF; SRC_DECODE_BASIC's checks in its order, then the port space
check; nothing is committed unless all pass. -/
def execSrcDecodeVendor (s : State) : Host.Outcome State Fault Refusal :=
  if vendorLen s.buf = 0 then fail .prefixLength s
  else if vendorLen s.buf + 32 > 128 then fail .outOfRange s
  else
    match ext s.buf (vendorLen s.buf) 4 with
    | .error k => fail k s
    | .ok r1 =>
      if vendorLen s.buf + 32 + 16 + 7 > 128 then fail .outOfRange s
      else
        match ext s.buf (vendorLen s.buf + 32) 2 with
        | .error k => fail k s
        | .ok r2 =>
          commit { s with
            pfx := mask128 s.buf (vendorLen s.buf)
            plen := BitVec.ofNat 8 (vendorLen s.buf)
            ipv4 := be 32 r1
            port := be 16 r2 }

end Sys2Proof.Machine
end

