-- ==== Sys2Proof/Machine/Dispatch.lean ====
section
/-! DEFINITION. The dispatch of a legal command to its meaning (30_encoding.md R66). No timing: DEDUCED, log entry 9, safe. -/

namespace Sys2Proof.Machine

/-- One arm per command of the opcode map (30_encoding.md R63). -/
def exec (i : Instr) (s : State) : Host.Outcome State Fault Refusal :=
  match i with
  | .extract bit nb => Sys2Proof.Machine.execExtract bit nb s
  | .insert bit nb => Sys2Proof.Machine.execInsert bit nb s
  | .argsPack => Sys2Proof.Machine.execArgsPack s
  | .argsUnpack => Sys2Proof.Machine.execArgsUnpack s
  | .dstEncode => Sys2Proof.Machine.execDstEncode s
  | .dstDecode bit => Sys2Proof.Machine.execDstDecode bit s
  | .srcEncode => Sys2Proof.Machine.execSrcEncode s
  | .srcDecodeBasic bit => Sys2Proof.Machine.execSrcDecodeBasic bit s
  | .srcDecodeVendor => Sys2Proof.Machine.execSrcDecodeVendor s

end Sys2Proof.Machine
end

