-- ==== Sys2Proof/Machine/Port.lean ====
section
/-! DEFINITION. The access port: what each event of the outside world does to the block (20_memory.md R46; 30_encoding.md R66;
70_reset_and_hazards.md R230). -/

namespace Sys2Proof.Machine

/-- `HostWrite(CMD, w)` (30_encoding.md R66): CMD takes the word, whatever its legality, and then the command it encodes runs; an
illegal word ends in `fail ILLEGAL_CMD` (R64). DEDUCED, log entry 16, safe: the meaning sees CMD already written. -/
def runCommand (w : CmdWord) (s : State) : Host.Outcome State Fault Refusal :=
  match decode w with
  | .error _ => fail .illegalCmd { s with cmd := w }
  | .ok i => exec i { s with cmd := w }

/-- `HostRead(id)`: the register's value, or 0 for a reserved number (20_memory.md R46; 10_state.md R33). -/
def hostRead (id : BitVec 5) (s : State) : Nat :=
  match Reg.ofId id with
  | none => 0
  | some r => readReg r s

/-- Does the value have the width of the register it is written to (20_memory.md R46)? A reserved number has no width, and a
write to it has no effect. -/
def valueFits (id : BitVec 5) (value : Nat) : Bool :=
  match Reg.ofId id with
  | none => true
  | some r => decide (value < 2 ^ r.width)

/-- `HostWrite(id, value)` with a value of the register's width (20_memory.md R46). -/
def writeReg (id : BitVec 5) (value : Nat) (s : State) : Host.Outcome State Fault Refusal :=
  match Reg.ofId id with
  | none => .next s
  | some .cmd => runCommand (BitVec.ofNat 32 value) s
  | some r => .next (storeReg r value s)

/-- `HostWrite(id, value)`; a value wider than the register is refused (93_implementation_defined.md I16; log entry 4,
safe). -/
def hostWrite (id : BitVec 5) (value : Nat) (s : State) : Host.Outcome State Fault Refusal :=
  if valueFits id value then writeReg id value s else .refused .valueWiderThanRegister

/-- One event at the ports, as one atomic step (20_memory.md R47, R51; 70_reset_and_hazards.md R230). A HostRead changes no
register; the value it returns goes to the model's `readLog` (DESIGN CHOICE, log entry 2, safe). -/
def takeInput (a : Input) (s : State) : Host.Outcome State Fault Refusal :=
  match a with
  | .reset => .next (resetBlock s)
  | .read id => .next { s with readLog := s.readLog ++ [⟨id, hostRead id s⟩] }
  | .write id value => hostWrite id value s

/-- No access arrives: "Between host accesses nothing happens" (60_exceptions.md R215). DEDUCED, log entry 14,
safe. -/
def idle (s : State) : Host.Outcome State Fault Refusal := .next s

/-- The first waiting event takes effect and leaves the queue; none waiting, nothing happens (20_memory.md R51). DESIGN
CHOICE, log entries 1 and 8, safe: the queue, in the order the port receives. -/
def serveNext (s : State) : Host.Outcome State Fault Refusal :=
  match s.input with
  | [] => idle s
  | a :: rest => takeInput a { s with input := rest }

/-- The HostWrite of CMD that carries an opcode-table word. -/
def commandWrite (nbits w : Nat) : Input := .write Reg.cmd.id (tableWord nbits w)

end Sys2Proof.Machine
end

