-- ==== Sys2Proof/Machine/Step.lean ====
section
/-! DEFINITION. One step of the machine: one host access or one reset (20_memory.md R51). -/

namespace Sys2Proof.Machine

/-- The step: the next event the port receives takes effect, and completes before the one after it (20_memory.md R51). -/
def step (s : State) : Host.Outcome State Fault Refusal := serveNext s

/-- `s` with the host about to write that word to CMD: the block fetches nothing, a command is the word the host writes
(20_memory.md R53). DESIGN CHOICE, log entry 5, safe: how a command comes to run. -/
def State.withFetchWord (s : State) (nbits w : Nat) : State := { s with input := commandWrite nbits w :: s.input }

end Sys2Proof.Machine
end

