-- ==== Sys2Proof/Machine/Assembler.lean ====
section
/-! DEFINITION. The host-program notation of 30_encoding.md R68 and R69: the lines, the host access each line stands for, and the text
form of a line. It is how a host program is written down; the block never sees it (92_eei_decisions.md D22). -/

namespace Sys2Proof.Machine

/-- A value as a line writes it: a number, or 16 bytes inside brackets, byte 0 first (30_encoding.md R68). -/
inductive Literal where
  | number (n : Nat)
  | bytes (l : List Byte)
  deriving DecidableEq, Repr

/-- A line of a host program (30_encoding.md R68), the pseudo-instructions of R69 among them. -/
inductive Line where
  /-- `wr <REG>, <value>`. -/
  | wr (r : Reg) (v : Literal)
  /-- `rd <REG>`. -/
  | rd (r : Reg)
  /-- One of the nine command lines. -/
  | command (i : Instr)
  /-- `cmd <word>`: "any raw word, legal or not". -/
  | cmd (word : Nat)
  /-- `clrsticky`. -/
  | clrsticky
  /-- `clrbuf`. -/
  | clrbuf
  /-- `check`. -/
  | check
  deriving DecidableEq, Repr

/-- A pseudo-instruction's expansion (30_encoding.md R69); every other line is itself. -/
def Line.expand : Line → Line
  | .wr r v => .wr r v
  | .rd r => .rd r
  | .command i => .command i
  | .cmd w => .cmd w
  | .clrsticky => .wr .status (.number 0x80)
  | .clrbuf => .wr .buf (.number 0)
  | .check => .rd .status

/-- The value of a literal written to a register of `width` bits, where it has one: a number of that width, or the 16 bytes of a
128-bit value (30_encoding.md R68). -/
def Literal.value (width : Nat) : Literal → Option Nat
  | .number n => if n < 2 ^ width then some n else none
  | .bytes l => if width = 128 ∧ l.length = 16 then some (be 128 l).toNat else none

/-- The host access of a line; `none` where an assembler refuses it (30_encoding.md R68). -/
def assemble (l : Line) : Option Input :=
  match l.expand with
  | .wr r v => (v.value r.width).map fun n => .write r.id n
  | .rd r => some (.read r.id)
  | .command i => if i.wf then some (.write Reg.cmd.id (encode i).toNat) else none
  | .cmd w => if w < 2 ^ 32 then some (.write Reg.cmd.id w) else none
  | .clrsticky => none
  | .clrbuf => none
  | .check => none

/-- The accesses of a program, in the order of its lines (30_encoding.md R68); `none` where a line is refused. -/
def assembleAll : List Line → Option (List Input)
  | [] => some []
  | l :: rest =>
    match assemble l, assembleAll rest with
    | some a, some as => some (a :: as)
    | _, _ => none

/-- A lexical token of a line. DESIGN CHOICE, log entry 12, unsafe for claims about text: the lexical choices. -/
inductive Token where
  | word (w : List Char)
  | comma
  | equals
  | lbrack
  | rbrack
  deriving DecidableEq, Repr

/-- The word read so far, if any, as a token before `rest`. -/
def flushWord (cur : List Char) (rest : List Token) : List Token :=
  match cur with
  | [] => rest
  | c :: cs => .word (c :: cs).reverse :: rest

/-- The tokens of a line; "Text after `;` is a comment" (30_encoding.md R68). `cur` is the word being read, backwards. -/
def tokenize (cur : List Char) : List Char → List Token
  | [] => flushWord cur []
  | c :: rest =>
    if c = ';' then flushWord cur []
    else if c = ' ' ∨ c = '\t' then flushWord cur (tokenize [] rest)
    else if c = ',' then flushWord cur (.comma :: tokenize [] rest)
    else if c = '=' then flushWord cur (.equals :: tokenize [] rest)
    else if c = '[' then flushWord cur (.lbrack :: tokenize [] rest)
    else if c = ']' then flushWord cur (.rbrack :: tokenize [] rest)
    else tokenize (c :: cur) rest

/-- The value of a digit in the given base, for bases up to 16. -/
def digitValue (base : Nat) (c : Char) : Option Nat :=
  let n := c.toNat
  let v :=
    if 48 ≤ n ∧ n ≤ 57 then n - 48
    else if 65 ≤ n ∧ n ≤ 70 then n - 55
    else if 97 ≤ n ∧ n ≤ 102 then n - 87
    else 16
  if v < base then some v else none

/-- The number a run of digits writes, continuing from `acc`. -/
def digitsValue (base acc : Nat) : List Char → Option Nat
  | [] => some acc
  | c :: cs =>
    match digitValue base c with
    | some v => digitsValue base (acc * base + v) cs
    | none => none

/-- "Values are written in hexadecimal with `0x`, or in decimal" (30_encoding.md R68). -/
def numberOf : List Char → Option Nat
  | [] => none
  | '0' :: 'x' :: d :: ds => digitsValue 16 0 (d :: ds)
  | c :: cs => digitsValue 10 0 (c :: cs)

/-- The bytes inside brackets, each two hexadecimal digits, up to the closing bracket that ends the line (30_encoding.md R68). -/
def bracketBytes : List Token → Option (List Byte)
  | [.rbrack] => some []
  | .word [a, b] :: rest =>
    match digitsValue 16 0 [a, b], bracketBytes rest with
    | some v, some l => some (BitVec.ofNat 8 v :: l)
    | _, _ => none
  | _ => none

/-- A register by its name (10_state.md R20; 30_encoding.md R68). -/
def Reg.ofName (w : List Char) : Option Reg :=
  ([("CMD".toList, Reg.cmd), ("STATUS".toList, .status), ("BUF".toList, .buf), ("DIN".toList, .din),
    ("DOUT".toList, .dout), ("PFX".toList, .pfx), ("PLEN".toList, .plen), ("IPV4".toList, .ipv4),
    ("PORT".toList, .port), ("ARGS".toList, .args), ("QFI".toList, .qfi), ("RF".toList, .rf),
    ("UF".toList, .uf), ("PDUID".toList, .pduid)]).lookup w

/-- The lines that are one word (30_encoding.md R68, R69). -/
def wordLine (w : List Char) : Option Line :=
  ([("args.pack".toList, Line.command .argsPack), ("args.unpack".toList, .command .argsUnpack),
    ("dst.encode".toList, .command .dstEncode), ("src.encode".toList, .command .srcEncode),
    ("src.decode.vendor".toList, .command .srcDecodeVendor), ("clrsticky".toList, .clrsticky),
    ("clrbuf".toList, .clrbuf), ("check".toList, .check)]).lookup w

/-- The operands of `wr`: a register name, a comma, a value. -/
def parseWr : List Token → Option Line
  | .word r :: .comma :: .lbrack :: rest =>
    match Reg.ofName r, bracketBytes rest with
    | some r, some l => some (.wr r (.bytes l))
    | _, _ => none
  | [.word r, .comma, .word v] =>
    match Reg.ofName r, numberOf v with
    | some r, some n => some (.wr r (.number n))
    | _, _ => none
  | _ => none

/-- The operands `bit=<b>, nb=<n>` of `extract` and `insert`. -/
def parseBitNb (f : Nat → Nat → Instr) : List Token → Option Line
  | [.word k1, .equals, .word b, .comma, .word k2, .equals, .word n] =>
    if k1 = "bit".toList ∧ k2 = "nb".toList then
      match numberOf b, numberOf n with
      | some b, some n => some (.command (f b n))
      | _, _ => none
    else none
  | _ => none

/-- The operand `bit=<b>` of the two decoders that take a prefix length. -/
def parseBit (f : Nat → Instr) : List Token → Option Line
  | [.word k, .equals, .word b] =>
    if k = "bit".toList then (numberOf b).map fun b => .command (f b) else none
  | _ => none

/-- A line from its tokens (30_encoding.md R68, R69): "The assembler emits no other form". R68 does not say whether a blank line, or one
that holds only a comment, is legal: the model's reader refuses it (DESIGN CHOICE, log entry 12, unsafe for claims about text). -/
def parseTokens : List Token → Option Line
  | [.word w] => wordLine w
  | .word w :: rest =>
    if w = "wr".toList then parseWr rest
    else if w = "rd".toList then
      match rest with
      | [.word r] => (Reg.ofName r).map .rd
      | _ => none
    else if w = "cmd".toList then
      match rest with
      | [.word v] => (numberOf v).map .cmd
      | _ => none
    else if w = "extract".toList then parseBitNb .extract rest
    else if w = "insert".toList then parseBitNb .insert rest
    else if w = "dst.decode".toList then parseBit .dstDecode rest
    else if w = "src.decode.basic".toList then parseBit .srcDecodeBasic rest
    else none
  | _ => none

/-- A line of host-program text. -/
def parseLine (text : List Char) : Option Line := parseTokens (tokenize [] text)

end Sys2Proof.Machine
end

