-- ==== Sys2Proof/Safety.lean ====
section
/-! DEFINITION. The terms claims are made in: the write matrix and operands of each command, the error table, and what a safe state
is. The step uses none of them. -/

namespace Sys2Proof.Machine

/-- The registers a command writes on success, beside STATUS: the write matrix of 10_state.md R32. -/
def resultRegs : Instr → List Reg
  | .extract _ _ => [.dout]
  | .insert _ _ => [.buf]
  | .argsPack => [.args]
  | .argsUnpack => [.qfi, .rf, .uf, .pduid]
  | .dstEncode => [.buf]
  | .dstDecode _ => [.pfx, .plen, .ipv4, .qfi, .rf, .uf, .pduid]
  | .srcEncode => [.buf]
  | .srcDecodeBasic _ => [.pfx, .plen, .ipv4, .port]
  | .srcDecodeVendor => [.pfx, .plen, .ipv4, .port]

/-- The registers a command reads beside the fields of its word: the Operands line of its rule (R100, R105, R120, R122, R140, R145,
R160, R165, R168). -/
def operandRegs : Instr → List Reg
  | .extract _ _ => [.buf]
  | .insert _ _ => [.buf, .din]
  | .argsPack => [.qfi, .rf, .uf, .pduid]
  | .argsUnpack => [.args]
  | .dstEncode => [.pfx, .plen, .ipv4, .qfi, .rf, .uf, .pduid]
  | .dstDecode _ => [.buf]
  | .srcEncode => [.pfx, .plen, .ipv4, .port]
  | .srcDecodeBasic _ => [.buf]
  | .srcDecodeVendor => [.buf]

/-- Which error a command ends in, by the conditions of the table of 60_exceptions.md R202; `none` where it succeeds. -/
def errorTable (i : Instr) (s : State) : Option ErrKind :=
  match i with
  | .extract b n => if b + 8 * n > 128 then some .outOfRange else none
  | .insert b n => if b + 8 * n > 128 then some .tooShortToMarshal else none
  | .argsPack => none
  | .argsUnpack => none
  | .dstEncode =>
    if s.plen.toNat ≥ 129 then some .prefixLength
    else if s.plen.toNat ≥ 57 then some .tooShortToMarshal else none
  | .dstDecode b => if b ≥ 57 then some .outOfRange else none
  | .srcEncode =>
    if s.plen.toNat ≥ 129 then some .prefixLength
    else if s.plen.toNat ≥ 81 then some .tooShortToMarshal else none
  | .srcDecodeBasic b => if b = 0 then some .prefixLength else if b ≥ 97 then some .outOfRange else none
  | .srcDecodeVendor =>
    if s.buf.toNat % 128 = 0 then some .prefixLength
    else if s.buf.toNat % 128 ≥ 74 then some .outOfRange else none

/-- The codes STATUS can hold: OK and the kinds some command raises. TOO_SHORT_TO_PARSE "cannot occur" (60_exceptions.md R202), and
6 and 7 are never produced (R201). -/
def producedCodes : List (BitVec 3) := [0, 2, 3, 4, 5]

/-- STATUS holds a code that is produced, and its reserved bits are 0 (10_state.md R22; 93_implementation_defined.md I13, I14). -/
def StatusLegal (s : State) : Prop := statusReserved s.status = 0 ∧ statusCode s.status ∈ producedCodes

/-- An event whose written value, if any, has the width of the register it names (20_memory.md R46). -/
def Input.fits : Input → Bool
  | .reset => true
  | .read _ => true
  | .write id value => valueFits id value

/-- Every waiting event is one the interface can carry. -/
def InputsFit (s : State) : Prop := ∀ a ∈ s.input, a.fits = true

/-- A safe state: a legal STATUS, and nothing waiting that the interface cannot carry. A safe run stays in such states. -/
def SafeState (s : State) : Prop := StatusLegal s ∧ InputsFit s

end Sys2Proof.Machine
end

