-- ==== Sys2Proof/Certificates/Slice0/Obligations.lean ====
section
/-! DEFINITION. The statements for the provers. Each docstring names the rule of spec/ it formalises. Values and STATUS are written out
here (CODE and STICKY as bits of the byte, closed forms as shifts), not through the definitions the meanings use. A statement that
gives the whole next state as a record update of `s` states its frame with it: every register it does not name is as before.
There is no memory in this block (20_memory.md R49), so no frame speaks of one. -/

open Sys2Proof Sys2Proof.Machine

/-! ### Encoding (30_encoding.md) -/

/-- R60, R63, R68: the word an assembler emits for a well-formed command decodes to that command, with every operand. -/
def Obligations.DecodeOfEncodeIsIdentity : Prop :=
  ∀ i : Instr, i.wf = true → decode (encode i) = .ok i

/-- R60 to R62, R65: a decoded command is one a word can hold, and encoding it gives the word back, with 0 in the fields its
opcode ignores. -/
def Obligations.EncodeOfDecodeKeepsUsedFields : Prop :=
  ∀ (w : CmdWord) (i : Instr), decode w = .ok i → i.wf = true ∧ encode i = w &&& i.usedMask

/-- R65: the legal words are those that match `0x0000000<OPC>` under the mask 0xFFE000FF for an assigned opcode, and the fields the
opcode does not use have no effect on what is decoded. -/
def Obligations.IgnoredFieldsHaveNoEffect : Prop :=
  (∀ w : CmdWord, (∃ i, decode w = .ok i) ↔
    ∃ o : Nat, 1 ≤ o ∧ o ≤ 9 ∧ w &&& 0xFFE000FF#32 = BitVec.ofNat 32 o) ∧
  (∀ (w : CmdWord) (i : Instr), decode w = .ok i → w &&& 0xFFE000FF#32 = i.opc.setWidth 32) ∧
  (∀ (w w' : CmdWord) (i : Instr), decode w = .ok i → w' &&& i.usedMask = w &&& i.usedMask → decode w' = .ok i)

/-- R64: which words are illegal, and that writing one to CMD ends in ILLEGAL_CMD (code 5, STICKY) and changes no other register but
CMD, which holds the word. -/
def Obligations.IllegalWordFails : Prop :=
  ∀ w : CmdWord,
    ((∃ e, decode w = .error e) ↔
      ((w.toNat % 16 = 0 ∨ 0xA ≤ w.toNat % 16) ∨ w.toNat / 16 % 16 ≠ 0 ∨ w.toNat / 2 ^ 21 ≠ 0)) ∧
    ∀ s : State, (∃ e, decode w = .error e) →
      hostWrite 0x00 w.toNat s = .next { s with cmd := w, status := (s.status &&& 0x78#8) ||| 0x85#8 }

/-- R66: a word written to CMD that decodes to a command is stored in CMD, and the step is that command's. The same for a word placed
by `withFetchWord`. (Where the waiting write stands is the model's: log entries 1 and 5.) -/
def Obligations.StepRunsTheDecodedCommand : Prop :=
  (∀ (s : State) (w : CmdWord) (i : Instr) (rest : List Input),
    s.input = .write 0x00 w.toNat :: rest → decode w = .ok i → step s = exec i { s with input := rest, cmd := w }) ∧
  (∀ (s : State) (w : CmdWord) (i : Instr),
    decode w = .ok i → step (s.withFetchWord 32 w.toNat) = exec i { s with cmd := w })

/-- R60, R63: some words, written out from the format, and the commands they are. -/
def Obligations.SampleWordsDecode : Prop :=
  decode 0b00000000000001000000110100000001#32 = .ok (.extract 13 4) ∧
  decode 0b00000000000000100010100000000010#32 = .ok (.insert 40 2) ∧
  decode 0b00000000000111111111111100000101#32 = .ok .dstEncode ∧
  decode 0b00000000000111110011010000000110#32 = .ok (.dstDecode 52) ∧
  decode 0b00000000000000000010100000001000#32 = .ok (.srcDecodeBasic 40) ∧
  decode 0b00000000000000000000000000001001#32 = .ok .srcDecodeVendor ∧
  decode 0b00000000000000000000000000010000#32 = .error .rsv0NotZero ∧
  decode 0b00000000001000000000000000000001#32 = .error .rsv1NotZero

/-- R68: the words of the command lines, as the table writes them; a line whose operand does not fit is refused; a line that is not
refused gives an access the interface can carry. -/
def Obligations.CommandLinesAssemble : Prop :=
  (∀ b n : Nat, b < 256 → n < 32 →
    assemble (.command (.extract b n)) = some (.write 0x00 (n * 2 ^ 16 + b * 2 ^ 8 + 0x1)) ∧
    assemble (.command (.insert b n)) = some (.write 0x00 (n * 2 ^ 16 + b * 2 ^ 8 + 0x2)) ∧
    assemble (.command (.dstDecode b)) = some (.write 0x00 (b * 2 ^ 8 + 0x6)) ∧
    assemble (.command (.srcDecodeBasic b)) = some (.write 0x00 (b * 2 ^ 8 + 0x8))) ∧
  assemble (.command .argsPack) = some (.write 0x00 0x3) ∧ assemble (.command .argsUnpack) = some (.write 0x00 0x4) ∧
  assemble (.command .dstEncode) = some (.write 0x00 0x5) ∧ assemble (.command .srcEncode) = some (.write 0x00 0x7) ∧
  assemble (.command .srcDecodeVendor) = some (.write 0x00 0x9) ∧
  (∀ i : Instr, assemble (.command i) = none ↔ i.wf = false) ∧
  (∀ (l : Line) (a : Input), assemble l = some a → a.fits = true)

/-- R69: "Each expands to exactly the lines shown". -/
def Obligations.PseudoInstructionsExpand : Prop :=
  assemble .clrsticky = assemble (.wr .status (.number 0x80)) ∧ assemble .clrsticky = some (.write 0x01 0x80) ∧
  assemble .clrbuf = assemble (.wr .buf (.number 0)) ∧ assemble .clrbuf = some (.write 0x02 0) ∧
  assemble .check = assemble (.rd .status) ∧ assemble .check = some (.read 0x01)

/-- R70: the example lines, from their text, and their words; the last is illegal. -/
def Obligations.ExampleLinesAssemble : Prop :=
  (parseLine "extract bit=13, nb=4".toList).bind assemble = some (.write 0x00 0x00040D01) ∧
  (parseLine "insert bit=40, nb=2".toList).bind assemble = some (.write 0x00 0x00022802) ∧
  (parseLine "dst.decode bit=48".toList).bind assemble = some (.write 0x00 0x00003006) ∧
  (parseLine "src.decode.basic bit=40".toList).bind assemble = some (.write 0x00 0x00002808) ∧
  (parseLine "src.decode.vendor".toList).bind assemble = some (.write 0x00 0x00000009) ∧
  (parseLine "cmd 0x00000010".toList).bind assemble = some (.write 0x00 0x00000010) ∧
  decode 0x00000010#32 = .error .rsv0NotZero

/-! ### Bits and windows (20_memory.md, 40_bitwindow.md) -/

/-- R41: address bit `k` is in-byte bit `7 - (k mod 8)` of byte `k div 8`, and it is register bit `127 - k`. -/
def Obligations.AddressBitOrder : Prop :=
  ∀ (v : Addr) (k : Nat), k < 128 →
    v.getMsbD k = (byte v (k / 8)).getLsbD (7 - k % 8) ∧ v.getMsbD k = v.getLsbD (127 - k)

/-- R102: the closed form of `ext`, on both of its branches. -/
def Obligations.ExtClosedForm : Prop :=
  ∀ (buf : Addr) (s n : Nat), s + 8 * n ≤ 128 →
    ∃ out, ext buf s n = .ok out ∧ out.length = n ∧
      be (8 * n) out = ((buf <<< s) >>> (128 - 8 * n)).setWidth (8 * n)

/-- R107: the closed form of `app`: an OR on the unaligned path, a copy on the aligned path, nothing for an empty payload. -/
def Obligations.AppClosedForm : Prop :=
  ∀ (buf : Addr) (e : Nat) (p : List Byte), ceilDiv8 e + p.length ≤ 16 →
    app buf e p = .ok
      (if e % 8 ≠ 0 then buf ||| (be 128 p <<< (128 - 8 * p.length - e))
       else (buf &&& ~~~(BitVec.ofNat 128 (2 ^ (8 * p.length) - 1) <<< (128 - 8 * p.length - e))) |||
        (be 128 p <<< (128 - 8 * p.length - e))) ∧
    (p.length = 0 → app buf e p = .ok buf)

/-- R111: `ext` and `app` accept the same windows and differ in the error kind. -/
def Obligations.WindowBoundsAgree : Prop :=
  ∀ (buf : Addr) (e : Nat) (p : List Byte),
    (ceilDiv8 e + p.length ≤ 16 ↔ e + 8 * p.length ≤ 128) ∧
    ((∃ out, ext buf e p.length = .ok out) ↔ e + 8 * p.length ≤ 128) ∧
    ((∃ b, app buf e p = .ok b) ↔ e + 8 * p.length ≤ 128) ∧
    (128 < e + 8 * p.length → ext buf e p.length = .error .outOfRange ∧ app buf e p = .error .tooShortToMarshal)

/-- R110: what is extracted and appended again at the same place into zero is the window, and all else is zero. -/
def Obligations.BitWindowRoundTrip : Prop :=
  ∀ (b : Addr) (s n : Nat), s + 8 * n ≤ 128 →
    ∃ out, ext b s n = .ok out ∧
      app 0 s out = .ok (b &&& (BitVec.ofNat 128 (2 ^ (8 * n) - 1) <<< (128 - 8 * n - s)))

/-- R100, R102: EXTRACT of a window that fits writes it to DOUT, left-justified, and CODE 0; nothing else changes. -/
def Obligations.ExtractWritesTheWindow : Prop :=
  ∀ (b n : Nat) (s : State), b + 8 * n ≤ 128 →
    exec (.extract b n) s = .next { s with
      dout := (s.buf <<< b) &&& (BitVec.ofNat 128 (2 ^ (8 * n) - 1) <<< (128 - 8 * n)), status := s.status &&& 0xF8#8 }

/-- R25: DOUT holds the extracted bytes and zeros after them; only a successful EXTRACT writes it (reset apart, R230); a host write
to it is ignored. -/
def Obligations.DoutHoldsOnlyExtractedBytes : Prop :=
  (∀ (b n : Nat) (s : State), b + 8 * n ≤ 128 → ∃ t out, exec (.extract b n) s = .next t ∧ ext s.buf b n = .ok out ∧
    (∀ i, (h : i < out.length) → byte t.dout i = out[i]) ∧ out.length = n ∧
    (∀ i j, i < n → j < 8 → (byte t.dout i).getMsbD j = s.buf.getMsbD (b + 8 * i + j)) ∧
    ∀ i, n ≤ i → i < 16 → byte t.dout i = 0) ∧
  (∀ (a : Input) (s t : State), takeInput a s = .next t → t.dout ≠ s.dout → a = .reset ∨
    ∃ v b n, a = .write 0x00 v ∧ decode (BitVec.ofNat 32 v) = .ok (.extract b n) ∧ b + 8 * n ≤ 128) ∧
  (∀ (s : State) (v : Nat), v < 2 ^ 128 → hostWrite 0x04 v s = .next s)

/-- R105, R107: INSERT of a window that fits writes BUF in the closed form, and CODE 0; nothing else changes. -/
def Obligations.InsertWritesTheWindow : Prop :=
  ∀ (e n : Nat) (s : State), e + 8 * n ≤ 128 →
    exec (.insert e n) s = .next { s with
      buf :=
        if e % 8 ≠ 0 then s.buf ||| ((s.din >>> (128 - 8 * n)) <<< (128 - 8 * n - e))
        else (s.buf &&& ~~~(BitVec.ofNat 128 (2 ^ (8 * n) - 1) <<< (128 - 8 * n - e))) |||
          ((s.din >>> (128 - 8 * n)) <<< (128 - 8 * n - e))
      status := s.status &&& 0xF8#8 }

/-- R108: INSERT leaves the bits outside its window; inside, it copies on the aligned path and ORs on the unaligned path; where the
window was zero it holds the payload. -/
def Obligations.InsertBitByBit : Prop :=
  ∀ (e n : Nat) (s : State), e + 8 * n ≤ 128 → ∃ t, exec (.insert e n) s = .next t ∧
    (∀ m, m < 128 → (m < e ∨ e + 8 * n ≤ m) → t.buf.getMsbD m = s.buf.getMsbD m) ∧
    (e % 8 = 0 → ∀ m, m < 8 * n → t.buf.getMsbD (e + m) = s.din.getMsbD m) ∧
    (e % 8 ≠ 0 → ∀ m, m < 8 * n → t.buf.getMsbD (e + m) = (s.buf.getMsbD (e + m) || s.din.getMsbD m)) ∧
    ((∀ m, m < 8 * n → s.buf.getMsbD (e + m) = false) → ∀ m, m < 8 * n → t.buf.getMsbD (e + m) = s.din.getMsbD m)

/-- R24: INSERT's payload is the first bytes of DIN (each byte of it, read back from a window that was zero), the other bytes are
ignored, and only the host writes DIN (reset apart, R230). -/
def Obligations.DinIsTheHostsPayload : Prop :=
  (∀ (e n : Nat) (s : State), e + 8 * n ≤ 128 → (∀ m, m < 8 * n → s.buf.getMsbD (e + m) = false) →
    ∃ t, exec (.insert e n) s = .next t ∧
      ∀ i j, i < n → j < 8 → t.buf.getMsbD (e + 8 * i + j) = (byte s.din i).getMsbD j) ∧
  (∀ (e n : Nat) (s : State) (d : Addr), (∀ i, i < n → byte d i = byte s.din i) →
    ∃ t, exec (.insert e n) s = .next t ∧ exec (.insert e n) { s with din := d } = .next { t with din := d }) ∧
  (∀ (a : Input) (s t : State), takeInput a s = .next t → t.din ≠ s.din → a = .reset ∨ ∃ v, a = .write 0x03 v)

/-- R112: after an INSERT that succeeded on a window that was zero, EXTRACT of the same window gives DIN's bytes. -/
def Obligations.ExtractAfterInsert : Prop :=
  ∀ (e n : Nat) (s t : State), (∀ m, e ≤ m → m < e + 8 * n → s.buf.getMsbD m = false) →
    exec (.insert e n) s = .next t → statusCode t.status = 0 →
    ∃ u, exec (.extract e n) t = .next u ∧ statusCode u.status = 0 ∧ ∀ i, i < n → byte u.dout i = byte s.din i

/-- R100, R103, R105, R109: EXTRACT and INSERT of a window that does not fit end in OUT_OF_RANGE (3) and TOO_SHORT_TO_MARSHAL (2), set
STICKY, and change nothing else. -/
def Obligations.WindowOutOfBoundsFails : Prop :=
  ∀ (b n : Nat) (s : State), 128 < b + 8 * n →
    exec (.extract b n) s = .next { s with status := (s.status &&& 0x78#8) ||| 0x83#8 } ∧
    exec (.insert b n) s = .next { s with status := (s.status &&& 0x78#8) ||| 0x82#8 }

/-! ### The argument block (41_argsmob.md) -/

/-- R120, R121: ARGS_PACK writes QFI, R, U and the session ID in that order, from the most significant bit, and CODE 0; nothing else
changes. -/
def Obligations.ArgsPackWritesArgs : Prop :=
  ∀ s : State, exec .argsPack s = .next { s with args := s.qfi ++ s.rf ++ s.uf ++ s.pduid, status := s.status &&& 0xF8#8 }

/-- R121, R122: ARGS_UNPACK splits ARGS, read as one number, into its four fields, and writes CODE 0; nothing else changes. -/
def Obligations.ArgsUnpackWritesFields : Prop :=
  ∀ s : State, exec .argsUnpack s = .next { s with
    qfi := BitVec.ofNat 6 (s.args.toNat / 2 ^ 34)
    rf := BitVec.ofNat 1 (s.args.toNat / 2 ^ 33)
    uf := BitVec.ofNat 1 (s.args.toNat / 2 ^ 32)
    pduid := BitVec.ofNat 32 s.args.toNat
    status := s.status &&& 0xF8#8 }

/-- R124: `args_ser` and `args_de` undo each other on every input, and no command ends in TOO_SHORT_TO_PARSE. -/
def Obligations.ArgsCodecIsABijection : Prop :=
  (∀ (q : BitVec 6) (r u : BitVec 1) (id : BitVec 32), argsDe (argsSer q r u id) = (q, r, u, id)) ∧
  (∀ a : BitVec 40, argsSer (argsDe a).1 (argsDe a).2.1 (argsDe a).2.2.1 (argsDe a).2.2.2 = a) ∧
  (∀ (i : Instr) (s t : State), exec i s = .next t → statusCode t.status ≠ 1)

/-! ### The destination address (42_dst.md) -/

/-- R140, R143: DST_ENCODE for PLEN up to 56 writes BUF in the closed form, and CODE 0; nothing else changes. -/
def Obligations.DstEncodeWritesBuf : Prop :=
  ∀ s : State, s.plen.toNat ≤ 56 →
    exec .dstEncode s = .next { s with
      buf := mask128 s.pfx s.plen.toNat ||| (s.ipv4.setWidth 128 <<< (96 - s.plen.toNat)) |||
        ((s.qfi ++ s.rf ++ s.uf ++ s.pduid : BitVec 40).setWidth 128 <<< (56 - s.plen.toNat))
      status := s.status &&& 0xF8#8 }

/-- R141: DST_ENCODE's layout, address bit by address bit, and the lengths for which it fits (the padding is 0, R149). -/
def Obligations.DstLayout : Prop :=
  ∀ s : State, ∃ t, exec .dstEncode s = .next t ∧ (statusCode t.status = 0 ↔ s.plen.toNat + 32 + 40 ≤ 128) ∧
    (s.plen.toNat + 32 + 40 ≤ 128 →
      (∀ m, m < s.plen.toNat → t.buf.getMsbD m = s.pfx.getMsbD m) ∧
      (∀ m, m < 32 → t.buf.getMsbD (s.plen.toNat + m) = s.ipv4.getMsbD m) ∧
      (∀ m, m < 40 → t.buf.getMsbD (s.plen.toNat + 32 + m) =
        (s.qfi ++ s.rf ++ s.uf ++ s.pduid : BitVec 40).getMsbD m) ∧
      (∀ m, s.plen.toNat + 72 ≤ m → m < 128 → t.buf.getMsbD m = false))

/-- R145: DST_DECODE for a length up to 56 writes the canonical prefix, its length, the IPv4 payload and the four argument fields, and
CODE 0; nothing else changes. -/
def Obligations.DstDecodeWritesFields : Prop :=
  ∀ (b : Nat) (s : State), b ≤ 56 →
    exec (.dstDecode b) s = .next { s with
      pfx := mask128 s.buf b
      plen := BitVec.ofNat 8 b
      ipv4 := ((s.buf <<< b) >>> 96).setWidth 32
      qfi := ((s.buf <<< (b + 32)) >>> 122).setWidth 6
      rf := ((s.buf <<< (b + 38)) >>> 127).setWidth 1
      uf := ((s.buf <<< (b + 39)) >>> 127).setWidth 1
      pduid := ((s.buf <<< (b + 40)) >>> 96).setWidth 32
      status := s.status &&& 0xF8#8 }

/-- R147: DST_ENCODE followed by `dst.decode` at the same length gives the fields back, the prefix canonical: two host writes of CMD, from
any state. -/
def Obligations.DestinationRoundTrip : Prop :=
  ∀ s : State, s.plen.toNat ≤ 56 →
    ∃ e t, hostWrite 0x00 0x5 s = .next e ∧ hostWrite 0x00 (s.plen.toNat * 2 ^ 8 + 0x6) e = .next t ∧
      statusCode t.status = 0 ∧ t.pfx = mask128 s.pfx s.plen.toNat ∧ t.plen = s.plen ∧
      t.ipv4 = s.ipv4 ∧ t.qfi = s.qfi ∧ t.rf = s.rf ∧ t.uf = s.uf ∧ t.pduid = s.pduid

/-- R140: for PLEN up to 56, DST_ENCODE leaves in BUF what two INSERTs on the canonical prefix leave there: the IPv4 payload at PLEN, then
the argument block that ARGS_PACK makes at PLEN + 32. It compares BUF only. -/
def Obligations.DstEncodeIsTwoInserts : Prop :=
  ∀ s : State, s.plen.toNat ≤ 56 →
    ∃ t1 t2 t3 t, exec .argsPack s = .next t1 ∧
      exec (.insert s.plen.toNat 4) { t1 with
        buf := mask128 s.pfx s.plen.toNat, din := s.ipv4.setWidth 128 <<< 96 } = .next t2 ∧
      exec (.insert (s.plen.toNat + 32) 5) { t2 with din := t1.args.setWidth 128 <<< 88 } = .next t3 ∧
      exec .dstEncode s = .next t ∧ t3.buf = t.buf

/-! ### The source address (43_src.md) -/

/-- R160, R163: SRC_ENCODE for PLEN up to 80 writes BUF in the closed form, and CODE 0; nothing else changes. -/
def Obligations.SrcEncodeWritesBuf : Prop :=
  ∀ s : State, s.plen.toNat ≤ 80 →
    exec .srcEncode s = .next { s with
      buf := ((mask128 s.pfx s.plen.toNat ||| (s.ipv4.setWidth 128 <<< (96 - s.plen.toNat)) |||
        (s.port.setWidth 128 <<< (80 - s.plen.toNat))) &&& ~~~0x7F#128) ||| s.plen.setWidth 128
      status := s.status &&& 0xF8#8 }

/-- R162: the trailer write: after a successful SRC_ENCODE the low 7 bits of byte 15 hold the prefix length, whatever port bits fell
there, and bit 7 of byte 15 keeps the port bit that fell there. -/
def Obligations.SrcTrailerHoldsTheLength : Prop :=
  ∀ s t : State, exec .srcEncode s = .next t → statusCode t.status = 0 →
    s.plen.toNat ≤ 80 ∧ t.buf.toNat % 2 ^ 7 = s.plen.toNat ∧
    t.buf.getMsbD 120 = (decide (73 ≤ s.plen.toNat) && s.port.getMsbD (88 - s.plen.toNat))

/-- R140, R143, R160, R163: the lengths for which an encoder fails, with PREFIX_LENGTH (4) or TOO_SHORT_TO_MARSHAL (2), STICKY set and
nothing else changed. -/
def Obligations.EncodersRejectLengths : Prop :=
  ∀ s : State,
    (129 ≤ s.plen.toNat →
      exec .dstEncode s = .next { s with status := (s.status &&& 0x78#8) ||| 0x84#8 } ∧
      exec .srcEncode s = .next { s with status := (s.status &&& 0x78#8) ||| 0x84#8 }) ∧
    (57 ≤ s.plen.toNat → s.plen.toNat ≤ 128 →
      exec .dstEncode s = .next { s with status := (s.status &&& 0x78#8) ||| 0x82#8 }) ∧
    (81 ≤ s.plen.toNat → s.plen.toNat ≤ 128 →
      exec .srcEncode s = .next { s with status := (s.status &&& 0x78#8) ||| 0x82#8 })

/-- R165: SRC_DECODE_BASIC for a length of 1 to 96 writes the canonical prefix, its length, the IPv4 payload and port 0, and CODE 0;
nothing else changes. -/
def Obligations.SrcDecodeBasicWritesFields : Prop :=
  ∀ (b : Nat) (s : State), 1 ≤ b → b ≤ 96 →
    exec (.srcDecodeBasic b) s = .next { s with
      pfx := mask128 s.buf b
      plen := BitVec.ofNat 8 b
      ipv4 := ((s.buf <<< b) >>> 96).setWidth 32
      port := 0
      status := s.status &&& 0xF8#8 }

/-- R168: SRC_DECODE_VENDOR, where the low 7 bits of BUF are 1 to 73, takes them as the length and writes the canonical prefix, the
length, the IPv4 payload and the port, and CODE 0; nothing else changes. -/
def Obligations.SrcDecodeVendorWritesFields : Prop :=
  ∀ s : State, 1 ≤ s.buf.toNat % 128 → s.buf.toNat % 128 ≤ 73 →
    exec .srcDecodeVendor s = .next { s with
      pfx := mask128 s.buf (s.buf.toNat % 128)
      plen := BitVec.ofNat 8 (s.buf.toNat % 128)
      ipv4 := ((s.buf <<< (s.buf.toNat % 128)) >>> 96).setWidth 32
      port := ((s.buf <<< (s.buf.toNat % 128 + 32)) >>> 112).setWidth 16
      status := s.status &&& 0xF8#8 }

/-- R145, R146, R165, R166, R168, R169: the lengths for which a decoder fails, with PREFIX_LENGTH (4) or OUT_OF_RANGE (3), STICKY set and
nothing else changed. -/
def Obligations.DecodersRejectLengths : Prop :=
  ∀ (b : Nat) (s : State),
    (57 ≤ b → exec (.dstDecode b) s = .next { s with status := (s.status &&& 0x78#8) ||| 0x83#8 }) ∧
    (b = 0 → exec (.srcDecodeBasic b) s = .next { s with status := (s.status &&& 0x78#8) ||| 0x84#8 }) ∧
    (97 ≤ b → exec (.srcDecodeBasic b) s = .next { s with status := (s.status &&& 0x78#8) ||| 0x83#8 }) ∧
    (s.buf.toNat % 128 = 0 → exec .srcDecodeVendor s = .next { s with status := (s.status &&& 0x78#8) ||| 0x84#8 }) ∧
    (74 ≤ s.buf.toNat % 128 → exec .srcDecodeVendor s = .next { s with status := (s.status &&& 0x78#8) ||| 0x83#8 })

/-- R170: (a) SRC_ENCODE then SRC_DECODE_VENDOR gives every field back for lengths 1 to 73; (b) SRC_ENCODE then `src.decode.basic`
gives prefix, length and IPv4 payload back for lengths 1 to 80, and port 0, so all of it only when PORT was 0. Two host
writes of CMD, from any state. -/
def Obligations.SourceRoundTrips : Prop :=
  (∀ s : State, 1 ≤ s.plen.toNat → s.plen.toNat ≤ 73 →
    ∃ e t, hostWrite 0x00 0x7 s = .next e ∧ hostWrite 0x00 0x9 e = .next t ∧
      statusCode t.status = 0 ∧ t.pfx = mask128 s.pfx s.plen.toNat ∧ t.plen = s.plen ∧ t.ipv4 = s.ipv4 ∧
      t.port = s.port) ∧
  (∀ s : State, 1 ≤ s.plen.toNat → s.plen.toNat ≤ 80 →
    ∃ e t, hostWrite 0x00 0x7 s = .next e ∧ hostWrite 0x00 (s.plen.toNat * 2 ^ 8 + 0x8) e = .next t ∧
      statusCode t.status = 0 ∧ t.pfx = mask128 s.pfx s.plen.toNat ∧ t.plen = s.plen ∧ t.ipv4 = s.ipv4 ∧
      t.port = 0 ∧ (t.port = s.port ↔ s.port = 0))

/-- R146, R149, R166, R169 (93 I1 to I3): a decoder does not read the padding or the unspecified bits: with them changed it writes the
same. -/
def Obligations.DecodersIgnoreUnspecifiedBits : Prop :=
  (∀ (b : Nat) (s : State) (v : Addr), b ≤ 56 → (∀ m, m < b + 72 → v.getMsbD m = s.buf.getMsbD m) →
    ∃ t, exec (.dstDecode b) s = .next t ∧ exec (.dstDecode b) { s with buf := v } = .next { t with buf := v }) ∧
  (∀ (b : Nat) (s : State) (v : Addr), b ≤ 96 → (∀ m, m < b + 32 → v.getMsbD m = s.buf.getMsbD m) →
    ∃ t, exec (.srcDecodeBasic b) s = .next t ∧
      exec (.srcDecodeBasic b) { s with buf := v } = .next { t with buf := v }) ∧
  (∀ (s : State) (v : Addr), s.buf.toNat % 128 ≤ 73 → v.toNat % 128 = s.buf.toNat % 128 →
    (∀ m, m < s.buf.toNat % 128 + 48 → v.getMsbD m = s.buf.getMsbD m) →
    ∃ t, exec .srcDecodeVendor s = .next t ∧ exec .srcDecodeVendor { s with buf := v } = .next { t with buf := v })

/-- R142, R160: the encoders use the canonical prefix only: bits of PFX past PLEN never reach BUF. -/
def Obligations.EncodersMaskThePrefix : Prop :=
  ∀ (s : State) (p : Addr), (∀ m, m < s.plen.toNat → p.getMsbD m = s.pfx.getMsbD m) →
    (∃ t, exec .dstEncode s = .next t ∧ exec .dstEncode { s with pfx := p } = .next { t with pfx := p }) ∧
    (∃ t, exec .srcEncode s = .next t ∧ exec .srcEncode { s with pfx := p } = .next { t with pfx := p })

/-- R26, R27: a successful decode leaves a canonical prefix whose length is in the decoder's range. -/
def Obligations.DecodedPrefixIsCanonical : Prop :=
  ∀ s t : State,
    (∀ b, exec (.dstDecode b) s = .next t → statusCode t.status = 0 →
      mask128 t.pfx t.plen.toNat = t.pfx ∧ t.plen.toNat = b ∧ b ≤ 56) ∧
    (∀ b, exec (.srcDecodeBasic b) s = .next t → statusCode t.status = 0 →
      mask128 t.pfx t.plen.toNat = t.pfx ∧ t.plen.toNat = b ∧ 1 ≤ b ∧ b ≤ 96) ∧
    (exec .srcDecodeVendor s = .next t → statusCode t.status = 0 →
      mask128 t.pfx t.plen.toNat = t.pfx ∧ 1 ≤ t.plen.toNat ∧ t.plen.toNat ≤ 73)

/-! ### The end of a command (60_exceptions.md) -/

/-- R202: every command, in every state, ends in the code the table gives: a failure sets STICKY and changes nothing else (CMD and
the operand registers among them), an illegal word gives code 5 with CMD holding it, a success gives code 0, and no command ends in
TOO_SHORT_TO_PARSE. -/
def Obligations.CommandsFollowTheErrorTable : Prop :=
  (∀ (i : Instr) (s : State) (k : ErrKind), errorTable i s = some k →
    exec i s = .next { s with status := (s.status &&& 0x78#8) ||| 0x80#8 ||| k.code.setWidth 8 } ∧ k ≠ .tooShortToParse) ∧
  (∀ (i : Instr) (s : State), errorTable i s = none →
    ∃ t, exec i s = .next t ∧ t.status = s.status &&& 0xF8#8) ∧
  (∀ (w : CmdWord) (s : State), (∃ e, decode w = .error e) →
    runCommand w s = .next { s with cmd := w, status := (s.status &&& 0x78#8) ||| 0x85#8 })

/-- R203: a command that ends with a code other than 0 has set STICKY and changed no other register, nor STATUS[6:3]. -/
def Obligations.FailureWritesOnlyStatus : Prop :=
  ∀ (i : Instr) (s t : State), exec i s = .next t → statusCode t.status ≠ 0 →
    statusSticky t.status = true ∧ statusReserved t.status = statusReserved s.status ∧ t = { s with status := t.status }

/-- R204: a command that ends with code 0 leaves STICKY as it was; STATUS[6:3] reads 0. -/
def Obligations.SuccessKeepsSticky : Prop :=
  ∀ (i : Instr) (s t : State), exec i s = .next t → statusCode t.status = 0 →
    statusSticky t.status = statusSticky s.status ∧ statusReserved t.status = statusReserved s.status ∧
    readReg .status t / 2 ^ 3 % 2 ^ 4 = 0

/-- R32: the frame of every command: no register outside its row of the write matrix changes but STATUS; the host's queue and its
answers stay (log entries 1 and 2). -/
def Obligations.CommandsKeepTheWriteMatrix : Prop :=
  ∀ (i : Instr) (s t : State), exec i s = .next t →
    (∀ r, r ≠ .status → r ∉ resultRegs i → readReg r t = readReg r s) ∧ t.input = s.input ∧ t.readLog = s.readLog

/-- R48: a command repeated at once changes nothing more: it ends in the state the first run left. -/
def Obligations.CommandsAreIdempotent : Prop :=
  ∀ (i : Instr) (s t : State), exec i s = .next t → exec i t = .next t

/-- R35, R66: a command's outcome and results depend only on its fields and on the registers its rule lists. -/
def Obligations.CommandsReadOnlyTheirOperands : Prop :=
  ∀ (i : Instr) (s s' : State), (∀ r ∈ operandRegs i, readReg r s = readReg r s') →
    ∃ t t', exec i s = .next t ∧ exec i s' = .next t' ∧ statusCode t.status = statusCode t'.status ∧
      (statusCode t.status = 0 → ∀ r ∈ resultRegs i, readReg r t = readReg r t')

/-! ### The port, reset and runs (20_memory.md, 70_reset_and_hazards.md) -/

/-- R46, R48: a HostRead gives the register's value and changes no register. (Where the waiting read and the answer stand is the model's:
log entries 1 and 2.) -/
def Obligations.HostReadHasNoSideEffect : Prop :=
  (∀ (s : State) (id : BitVec 5) (rest : List Input), s.input = .read id :: rest →
    step s = .next { s with input := rest, readLog := s.readLog ++ [⟨id, hostRead id s⟩] }) ∧
  (∀ s : State,
    hostRead 0x00 s = s.cmd.toNat ∧ hostRead 0x01 s = (s.status &&& 0x87#8).toNat ∧ hostRead 0x02 s = s.buf.toNat ∧
    hostRead 0x03 s = s.din.toNat ∧ hostRead 0x04 s = s.dout.toNat ∧ hostRead 0x05 s = s.pfx.toNat ∧
    hostRead 0x06 s = s.plen.toNat ∧ hostRead 0x07 s = s.ipv4.toNat ∧ hostRead 0x08 s = s.port.toNat ∧
    hostRead 0x09 s = s.args.toNat ∧ hostRead 0x0A s = s.qfi.toNat ∧ hostRead 0x0B s = s.rf.toNat ∧
    hostRead 0x0C s = s.uf.toNat ∧ hostRead 0x0D s = s.pduid.toNat)

/-- R46: a HostWrite of a data register sets it and changes nothing else. -/
def Obligations.HostWriteSetsItsRegister : Prop :=
  ∀ (s : State) (v : Nat),
    (v < 2 ^ 128 → hostWrite 0x02 v s = .next { s with buf := BitVec.ofNat 128 v }) ∧
    (v < 2 ^ 128 → hostWrite 0x03 v s = .next { s with din := BitVec.ofNat 128 v }) ∧
    (v < 2 ^ 128 → hostWrite 0x05 v s = .next { s with pfx := BitVec.ofNat 128 v }) ∧
    (v < 2 ^ 8 → hostWrite 0x06 v s = .next { s with plen := BitVec.ofNat 8 v }) ∧
    (v < 2 ^ 32 → hostWrite 0x07 v s = .next { s with ipv4 := BitVec.ofNat 32 v }) ∧
    (v < 2 ^ 16 → hostWrite 0x08 v s = .next { s with port := BitVec.ofNat 16 v }) ∧
    (v < 2 ^ 40 → hostWrite 0x09 v s = .next { s with args := BitVec.ofNat 40 v }) ∧
    (v < 2 ^ 6 → hostWrite 0x0A v s = .next { s with qfi := BitVec.ofNat 6 v }) ∧
    (v < 2 ^ 1 → hostWrite 0x0B v s = .next { s with rf := BitVec.ofNat 1 v }) ∧
    (v < 2 ^ 1 → hostWrite 0x0C v s = .next { s with uf := BitVec.ofNat 1 v }) ∧
    (v < 2 ^ 32 → hostWrite 0x0D v s = .next { s with pduid := BitVec.ofNat 32 v })

/-- R22, R46: a HostWrite of STATUS clears STICKY where bit 7 of the value is 1 and changes no other bit. -/
def Obligations.StatusIsWriteOneToClear : Prop :=
  ∀ (s : State) (v : Nat), v < 2 ^ 8 →
    hostWrite 0x01 v s = .next { s with status := if 2 ^ 7 ≤ v then s.status &&& 0x7F#8 else s.status }

/-- R21, R46: a register the host writes reads back as written, STATUS and DOUT apart; CMD too, whatever the command did. -/
def Obligations.WriteThenReadReturnsTheValue : Prop :=
  ∀ (s : State) (r : Reg) (v : Nat), r ≠ .status → r ≠ .dout → v < 2 ^ r.width →
    ∃ t, hostWrite r.id v s = .next t ∧ hostRead r.id t = v

/-- R33: a reserved number reads 0, and a write to it has no effect. -/
def Obligations.ReservedNumbersHoldNothing : Prop :=
  ∀ (s : State) (id : BitVec 5), 0x0E ≤ id.toNat → hostRead id s = 0 ∧ ∀ v : Nat, hostWrite id v s = .next s

/-- 93 I16 (log entry 4): a HostWrite of a value wider than its register is refused, and only that is. -/
def Obligations.OnlyTooWideWritesAreRefused : Prop :=
  ∀ (s : State) (r : Refusal), step s = .refused r ↔
    (r = .valueWiderThanRegister ∧
      ∃ (x : Reg) (v : Nat) (rest : List Input), s.input = .write x.id v :: rest ∧ 2 ^ x.width ≤ v)

/-- R51: one step takes the oldest waiting access, and no other, and it completes before the next one; with none waiting nothing
happens (R215). (The queue and the idle step are the model's: log entries 1 and 14.) -/
def Obligations.StepServesTheOldestAccess : Prop :=
  (∀ s : State, s.input = [] → step s = .next s) ∧
  (∀ (s : State) (a : Input) (rest : List Input), s.input = a :: rest → step s = takeInput a { s with input := rest }) ∧
  (∀ s t : State, step s = .next t → t.input = s.input.tail)

/-- R230: reset sets every register to 0, whatever the state, and runs no command; every register is 0 in the state after reset. That
reset leaves `input` and `readLog` as they were is the model's own (log entry 13, DEDUCED), not R230's. -/
def Obligations.ResetZeroesEveryRegister : Prop :=
  (∀ s : State, takeInput .reset s =
    .next { cmd := 0, status := 0, buf := 0, din := 0, dout := 0, pfx := 0, plen := 0, ipv4 := 0, port := 0,
            args := 0, qfi := 0, rf := 0, uf := 0, pduid := 0, input := s.input, readLog := s.readLog }) ∧
  (∀ r : Reg, readReg r State.reset = 0)

/-- R231: the commands on the reset values; none of the nine ends in ILLEGAL_CMD. -/
def Obligations.CommandsAfterReset : Prop :=
  exec .dstEncode State.reset = .next State.reset ∧
  exec .srcEncode State.reset = .next State.reset ∧
  exec .srcDecodeVendor State.reset = .next { State.reset with status := 0x84 } ∧
  (∀ b n : Nat, b + 8 * n ≤ 128 →
    exec (.extract b n) State.reset = .next State.reset ∧ exec (.insert b n) State.reset = .next State.reset) ∧
  (∀ i : Instr, ∃ t, exec i State.reset = .next t ∧ statusCode t.status ≠ 5)

/-- R22, R201, R202 (93 I13, I14): every step keeps STATUS legal: reserved bits 0, and a code that some command produces. -/
def Obligations.StepKeepsStatusLegal : Prop :=
  ∀ s t : State, StatusLegal s → step s = .next t → StatusLegal t

/-- R230: the state after reset is safe. -/
def Obligations.ResetIsSafe : Prop := SafeState State.reset

/-- R51, R200, R207: from a safe state the machine always takes a step, and stays safe. -/
def Obligations.SafeStatesNeverStop : Prop :=
  ∀ s : State, SafeState s → ∃ t, step s = .next t ∧ SafeState t

/-- R22, R208: STICKY is cleared only by reset or by a host write of STATUS with bit 7 = 1. -/
def Obligations.StickyClearedOnlyByHostOrReset : Prop :=
  ∀ s t : State, step s = .next t → statusSticky s.status = true → statusSticky t.status = false →
    ∃ rest, s.input = .reset :: rest ∨ ∃ v, s.input = .write 0x01 v :: rest ∧ 2 ^ 7 ≤ v

/-- R23: BUF changes only by a host write of BUF, by reset, or by a successful INSERT, DST_ENCODE or SRC_ENCODE. -/
def Obligations.BufWrittenOnlyByEncodersAndHost : Prop :=
  ∀ (a : Input) (s t : State), takeInput a s = .next t → t.buf ≠ s.buf → a = .reset ∨
    (∃ v, a = .write 0x02 v) ∨
    (∃ v i, a = .write 0x00 v ∧ decode (BitVec.ofNat 32 v) = .ok i ∧ statusCode t.status = 0 ∧
      ((∃ e n, i = .insert e n) ∨ i = .dstEncode ∨ i = .srcEncode))
end

