-- ==== Sys2Proof/Config.lean ====
section
/-! DEFINITION. What the spec leaves to a platform. The block itself takes no open parameter (00_scope.md R8: "every open point is
decided"), and no command has an undefined result, so there is no free value here. -/

namespace Sys2Proof

/-- The base address of the block on a platform's bus: the one named parameter of 93_implementation_defined.md (I15), fixed by the
platform and read by no rule (20_memory.md R49). It has no body, so nothing can be proved about it. DEDUCED, log entry 7, safe. -/
opaque Config.baseAddress : Nat

end Sys2Proof
end

