-- ==== Sys2Proof/Laws/Bits.lean ====
section
/-! SUPPORT. The primitives of 00_scope.md R12, bit by bit. `v.getMsbD k` is address bit `k` (00_scope.md R10, R11). -/

namespace Sys2Proof.Machine

/-- In-byte bit `7 - j` of byte `i` is address bit `8i + j`. -/
theorem byte_getMsbD (v : Addr) {i j : Nat} (hi : i < 16) (hj : j < 8) :
    (byte v i).getMsbD j = v.getMsbD (8 * i + j) := by
  simp only [byte, BitVec.getMsbD, BitVec.getLsbD_extractLsb']
  rw [show 120 - 8 * i + (8 - 1 - j) = 128 - 1 - (8 * i + j) by omega]
  simp [show 8 * i + j < 128 by omega, show 8 - 1 - j < 8 by omega, hj]

/-- Two bytes are equal when their eight bits are. -/
theorem Byte.ext_msb {x y : Byte} (h : ∀ j, j < 8 → x.getMsbD j = y.getMsbD j) : x = y :=
  BitVec.eq_of_getMsbD_eq fun j hj => h j hj

/-- Two addresses are equal when their 128 address bits are. -/
theorem Addr.ext_msb {x y : Addr} (h : ∀ k, k < 128 → x.getMsbD k = y.getMsbD k) : x = y :=
  BitVec.eq_of_getMsbD_eq fun k hk => h k hk

/-- `setByte` replaces the bits of its byte and no other. -/
theorem setByte_getMsbD (v : Addr) (x : Byte) {i k : Nat} (hi : i < 16) (hk : k < 128) :
    (setByte v i x).getMsbD k = if k / 8 = i then x.getMsbD (k % 8) else v.getMsbD k := by
  have hFF : ∀ n, (0xFF#128).getLsbD n = decide (n < 8) := by
    intro n
    by_cases hn : n < 128
    · have : ∀ m : Fin 128, (0xFF#128).getLsbD m = decide (m.val < 8) := by decide
      exact this ⟨n, hn⟩
    · simp [BitVec.getLsbD_of_ge _ _ (Nat.le_of_not_lt hn)]; omega
  simp only [setByte, BitVec.getMsbD, BitVec.getLsbD_or, BitVec.getLsbD_and, BitVec.getLsbD_not,
    BitVec.getLsbD_shiftLeft, BitVec.getLsbD_setWidth, hFF]
  by_cases hki : k / 8 = i
  · have h1 : ¬ (128 - 1 - k < 120 - 8 * i) := by omega
    have h2 : 128 - 1 - k - (120 - 8 * i) = 8 - 1 - k % 8 := by omega
    simp [hk, hki, h1, h2, Nat.mod_lt, show 128 - 1 - k < 128 by omega, show 8 - 1 - k % 8 < 8 by omega]
    intro; omega
  · simp only [hki, if_false]
    by_cases h1 : 128 - 1 - k < 120 - 8 * i
    · simp [hk, h1, show 127 - k < 128 by omega]
    · have h2 : ¬ (128 - 1 - k - (120 - 8 * i) < 8) := by omega
      have h3 : x.getLsbD (128 - 1 - k - (120 - 8 * i)) = false := BitVec.getLsbD_of_ge _ _ (by omega)
      simp only [hk, h1, h2, h3]
      simp [show 127 - k < 128 by omega]

/-- `mask128` keeps address bits `0 .. len-1` and zeroes the rest. -/
theorem mask128_getMsbD (v : Addr) {len k : Nat} (hlen : len ≤ 128) :
    (mask128 v len).getMsbD k = (v.getMsbD k && decide (k < len)) := by
  by_cases hk : k < 128
  · simp only [mask128, BitVec.getMsbD, BitVec.getLsbD_and, BitVec.getLsbD_ofNat, ones, Nat.testBit_shiftLeft,
      Nat.testBit_two_pow_sub_one]
    have : (decide (128 - 1 - k ≥ 128 - len) && decide (128 - 1 - k - (128 - len) < len)) = decide (k < len) := by
      by_cases h : k < len <;> simp [h] <;> omega
    simp only [hk, show 128 - 1 - k < 128 by omega, decide_true, Bool.true_and, this]
  · simp [BitVec.getMsbD, hk]

/-- A mask of a mask keeps the shorter run. -/
theorem mask128_mask128 (v : Addr) {a b : Nat} (ha : a ≤ 128) (hb : b ≤ 128) :
    mask128 (mask128 v a) b = mask128 v (min a b) := by
  apply Addr.ext_msb
  intro k _
  rw [mask128_getMsbD _ hb, mask128_getMsbD _ ha, mask128_getMsbD _ (by omega)]
  by_cases h1 : k < a <;> by_cases h2 : k < b <;> simp [h1, h2]

theorem mask128_idem (v : Addr) {len : Nat} (h : len ≤ 128) : mask128 (mask128 v len) len = mask128 v len := by
  rw [mask128_mask128 v h h, Nat.min_self]

@[simp] theorem bytesOf_length {w : Nat} (n : Nat) (v : BitVec w) : (bytesOf n v).length = n := by
  simp [bytesOf]

/-- Byte `i` of `bytesOf n v`, for a value of `8n` bits, holds the value's bits `8i .. 8i+7`, most significant first. -/
theorem bytesOf_getElem_getMsbD {n w : Nat} (hw : w = 8 * n) (v : BitVec w) {i j : Nat} (hi : i < n) (hj : j < 8) :
    ((bytesOf n v)[i]'(by simpa using hi)).getMsbD j = v.getMsbD (8 * i + j) := by
  subst hw
  simp only [bytesOf, List.getElem_map, List.getElem_range, BitVec.getMsbD, BitVec.getLsbD_extractLsb']
  rw [show 8 * (n - 1 - i) + (8 - 1 - j) = 8 * n - 1 - (8 * i + j) by omega]
  simp [show 8 * i + j < 8 * n by omega, show 8 - 1 - j < 8 by omega, hj]

/-- Appending one byte to the list of `be` shifts it in at the low end. -/
theorem be_concat (w : Nat) (l : List Byte) (x : Byte) : be w (l ++ [x]) = (be w l <<< 8) ||| x.setWidth w := by
  simp [be]

/-- The bits of `be w l`, for a list that fills the width: byte `i` holds bits `8i .. 8i+7`. -/
theorem be_getMsbD {w : Nat} (l : List Byte) (hw : w = 8 * l.length) {i j : Nat} (hi : i < l.length) (hj : j < 8) :
    (be w l).getMsbD (8 * i + j) = l[i].getMsbD j := by
  have key : ∀ (l : List Byte) (i j : Nat) (hi : i < l.length), j < 8 → 8 * l.length ≤ w →
      (be w l).getLsbD (8 * (l.length - 1 - i) + (7 - j)) = l[i].getMsbD j := by
    intro l
    induction l using List.reverseRecOn with
    | nil => intro i j hi; simp at hi
    | append_singleton l x ih =>
      intro i j hi hj hlw
      simp only [List.length_append, List.length_singleton] at hi hlw ⊢
      rw [be_concat]
      simp only [BitVec.getLsbD_or, BitVec.getLsbD_shiftLeft, BitVec.getLsbD_setWidth]
      by_cases h : i < l.length
      · rw [List.getElem_append_left h, ← ih i j h hj (by omega)]
        have h1 : ¬ (8 * (l.length + 1 - 1 - i) + (7 - j) < 8) := by omega
        have h2 : 8 * (l.length + 1 - 1 - i) + (7 - j) < w := by omega
        have h3 : 8 * (l.length + 1 - 1 - i) + (7 - j) - 8 = 8 * (l.length - 1 - i) + (7 - j) := by omega
        rw [BitVec.getLsbD_of_ge x _ (by omega)]
        simp only [h1, h2, h3]
        simp
      · have : i = l.length := by omega
        subst this
        simp [BitVec.getMsbD, hj, show 7 - j < w by omega, show 7 - j < 8 by omega]
  have h := key l i j hi hj (by omega)
  rw [← h, BitVec.getMsbD]
  rw [show w - 1 - (8 * i + j) = 8 * (l.length - 1 - i) + (7 - j) by omega]
  simp [show 8 * i + j < w by omega]

/-- `bytesOf` undoes `be`: a value is the big-endian reading of its bytes. -/
theorem be_bytesOf {n w : Nat} (hw : w = 8 * n) (v : BitVec w) : be w (bytesOf n v) = v := by
  apply BitVec.eq_of_getMsbD_eq
  intro k hk
  have hi : k / 8 < n := by omega
  have hj : k % 8 < 8 := Nat.mod_lt _ (by decide)
  have h := be_getMsbD (w := w) (bytesOf n v) (by simpa using hw) (i := k / 8) (j := k % 8) (by simpa using hi) hj
  rw [bytesOf_getElem_getMsbD hw v hi hj] at h
  rwa [show 8 * (k / 8) + k % 8 = k by omega] at h

end Sys2Proof.Machine
end

