-- ==== Sys2Proof/Laws/Decode.lean ====
section
/-! SUPPORT. The decoder and the encoder, field by field. -/

namespace Sys2Proof

@[simp] theorem fieldRsv1_packFields (n : BitVec 5) (b : BitVec 8) (o : BitVec 4) : fieldRsv1 (packFields n b o) = 0 := by
  apply BitVec.eq_of_getLsbD_eq
  intro i hi
  simp only [fieldRsv1, packFields, BitVec.getLsbD_extractLsb', BitVec.getLsbD_append]
  simp [show ¬ (21 + i < 4) by omega, show ¬ (21 + i - 4 < 4) by omega, show ¬ (21 + i - 4 - 4 < 8) by omega,
    show ¬ (21 + i - 4 - 4 - 8 < 5) by omega]

@[simp] theorem fieldNb_packFields (n : BitVec 5) (b : BitVec 8) (o : BitVec 4) : fieldNb (packFields n b o) = n := by
  apply BitVec.eq_of_getLsbD_eq
  intro i hi
  simp only [fieldNb, packFields, BitVec.getLsbD_extractLsb', BitVec.getLsbD_append]
  simp only [hi, show ¬ (16 + i < 4) by omega, show ¬ (16 + i - 4 < 4) by omega, show ¬ (16 + i - 4 - 4 < 8) by omega,
    show 16 + i - 4 - 4 - 8 = i by omega]
  simp

@[simp] theorem fieldBit_packFields (n : BitVec 5) (b : BitVec 8) (o : BitVec 4) : fieldBit (packFields n b o) = b := by
  apply BitVec.eq_of_getLsbD_eq
  intro i hi
  simp only [fieldBit, packFields, BitVec.getLsbD_extractLsb', BitVec.getLsbD_append]
  simp only [hi, show ¬ (8 + i < 4) by omega, show ¬ (8 + i - 4 < 4) by omega,
    show 8 + i - 4 - 4 = i by omega]
  simp

@[simp] theorem fieldRsv0_packFields (n : BitVec 5) (b : BitVec 8) (o : BitVec 4) : fieldRsv0 (packFields n b o) = 0 := by
  apply BitVec.eq_of_getLsbD_eq
  intro i hi
  simp only [fieldRsv0, packFields, BitVec.getLsbD_extractLsb', BitVec.getLsbD_append]
  simp [hi, show ¬ (4 + i < 4) by omega]

@[simp] theorem fieldOpc_packFields (n : BitVec 5) (b : BitVec 8) (o : BitVec 4) : fieldOpc (packFields n b o) = o := by
  apply BitVec.eq_of_getLsbD_eq
  intro i hi
  simp only [fieldOpc, packFields, BitVec.getLsbD_extractLsb', BitVec.getLsbD_append]
  simp [hi]

/-- A word is its five fields in their places (30_encoding.md R60). -/
theorem word_fields (w : CmdWord) :
    w = fieldRsv1 w ++ fieldNb w ++ fieldBit w ++ fieldRsv0 w ++ fieldOpc w := by
  apply BitVec.eq_of_getLsbD_eq
  intro i hi
  simp only [fieldRsv1, fieldNb, fieldBit, fieldRsv0, fieldOpc, BitVec.getLsbD_append, BitVec.getLsbD_extractLsb']
  by_cases h1 : i < 4
  · simp [h1]
  · by_cases h2 : i < 8
    · simp [h1, show i - 4 < 4 by omega, show 4 + (i - 4) = i by omega]
    · by_cases h3 : i < 16
      · simp [h1, show ¬ (i - 4 < 4) by omega, show i - 4 - 4 < 8 by omega, show 8 + (i - 4 - 4) = i by omega]
      · by_cases h4 : i < 21
        · simp [h1, show ¬ (i - 4 < 4) by omega, show ¬ (i - 4 - 4 < 8) by omega, show i - 4 - 4 - 8 < 5 by omega,
            show 16 + (i - 4 - 4 - 8) = i by omega]
        · simp [h1, show ¬ (i - 4 < 4) by omega, show ¬ (i - 4 - 4 < 8) by omega, show ¬ (i - 4 - 4 - 8 < 5) by omega,
            show i - 4 - 4 - 8 - 5 < 11 by omega, show 21 + (i - 4 - 4 - 8 - 5) = i by omega]

/-- What the decoder accepts and what it then answers, in one case split. -/
theorem decode_cases (w : CmdWord) :
    (∃ e, decode w = .error e) ∨
    (fieldRsv1 w = 0 ∧ fieldRsv0 w = 0 ∧
      decode w = decodeOpcode (fieldOpc w).toNat (fieldBit w).toNat (fieldNb w).toNat ∧
      1 ≤ (fieldOpc w).toNat ∧ (fieldOpc w).toNat ≤ 9) := by
  have hopc : (∃ e, decodeOpcode (fieldOpc w).toNat (fieldBit w).toNat (fieldNb w).toNat = .error e) ∨
      1 ≤ (fieldOpc w).toNat ∧ (fieldOpc w).toNat ≤ 9 := by
    have hlt : (fieldOpc w).toNat < 16 := BitVec.isLt _
    generalize (fieldOpc w).toNat = o at hlt
    unfold decodeOpcode
    split <;> first | exact .inr (by decide) | exact .inl ⟨_, rfl⟩
  by_cases h1 : fieldRsv1 w = 0
  · by_cases h2 : fieldRsv0 w = 0
    · have hd : decode w = decodeOpcode (fieldOpc w).toNat (fieldBit w).toNat (fieldNb w).toNat := by
        rw [decode, if_neg (not_not.mpr h1), if_neg (not_not.mpr h2)]
      rcases hopc with ⟨e, he⟩ | h3
      · exact .inl ⟨e, hd.trans he⟩
      · exact .inr ⟨h1, h2, hd, h3⟩
    · exact .inl ⟨_, by rw [decode, if_neg (not_not.mpr h1), if_pos h2]⟩
  · exact .inl ⟨_, by rw [decode, if_pos h1]⟩

end Sys2Proof
end

