-- ==== Sys2Proof/Laws/State.lean ====
section
/-! SUPPORT. The updates of the state, field by field: what each shared update sets and what it leaves alone. -/

namespace Sys2Proof.Machine

@[simp] theorem setArgsFields_cmd (a : BitVec 40) (s : State) : (setArgsFields a s).cmd = s.cmd := rfl
@[simp] theorem setArgsFields_status (a : BitVec 40) (s : State) : (setArgsFields a s).status = s.status := rfl
@[simp] theorem setArgsFields_buf (a : BitVec 40) (s : State) : (setArgsFields a s).buf = s.buf := rfl
@[simp] theorem setArgsFields_din (a : BitVec 40) (s : State) : (setArgsFields a s).din = s.din := rfl
@[simp] theorem setArgsFields_dout (a : BitVec 40) (s : State) : (setArgsFields a s).dout = s.dout := rfl
@[simp] theorem setArgsFields_pfx (a : BitVec 40) (s : State) : (setArgsFields a s).pfx = s.pfx := rfl
@[simp] theorem setArgsFields_plen (a : BitVec 40) (s : State) : (setArgsFields a s).plen = s.plen := rfl
@[simp] theorem setArgsFields_ipv4 (a : BitVec 40) (s : State) : (setArgsFields a s).ipv4 = s.ipv4 := rfl
@[simp] theorem setArgsFields_port (a : BitVec 40) (s : State) : (setArgsFields a s).port = s.port := rfl
@[simp] theorem setArgsFields_args (a : BitVec 40) (s : State) : (setArgsFields a s).args = s.args := rfl
@[simp] theorem setArgsFields_qfi (a : BitVec 40) (s : State) : (setArgsFields a s).qfi = (argsDe a).1 := rfl
@[simp] theorem setArgsFields_rf (a : BitVec 40) (s : State) : (setArgsFields a s).rf = (argsDe a).2.1 := rfl
@[simp] theorem setArgsFields_uf (a : BitVec 40) (s : State) : (setArgsFields a s).uf = (argsDe a).2.2.1 := rfl
@[simp] theorem setArgsFields_pduid (a : BitVec 40) (s : State) : (setArgsFields a s).pduid = (argsDe a).2.2.2 := rfl
@[simp] theorem setArgsFields_input (a : BitVec 40) (s : State) : (setArgsFields a s).input = s.input := rfl
@[simp] theorem setArgsFields_readLog (a : BitVec 40) (s : State) : (setArgsFields a s).readLog = s.readLog := rfl

@[simp] theorem resetBlock_cmd (s : State) : (resetBlock s).cmd = 0 := rfl
@[simp] theorem resetBlock_status (s : State) : (resetBlock s).status = 0 := rfl
@[simp] theorem resetBlock_buf (s : State) : (resetBlock s).buf = 0 := rfl
@[simp] theorem resetBlock_din (s : State) : (resetBlock s).din = 0 := rfl
@[simp] theorem resetBlock_dout (s : State) : (resetBlock s).dout = 0 := rfl
@[simp] theorem resetBlock_pfx (s : State) : (resetBlock s).pfx = 0 := rfl
@[simp] theorem resetBlock_plen (s : State) : (resetBlock s).plen = 0 := rfl
@[simp] theorem resetBlock_ipv4 (s : State) : (resetBlock s).ipv4 = 0 := rfl
@[simp] theorem resetBlock_port (s : State) : (resetBlock s).port = 0 := rfl
@[simp] theorem resetBlock_args (s : State) : (resetBlock s).args = 0 := rfl
@[simp] theorem resetBlock_qfi (s : State) : (resetBlock s).qfi = 0 := rfl
@[simp] theorem resetBlock_rf (s : State) : (resetBlock s).rf = 0 := rfl
@[simp] theorem resetBlock_uf (s : State) : (resetBlock s).uf = 0 := rfl
@[simp] theorem resetBlock_pduid (s : State) : (resetBlock s).pduid = 0 := rfl
@[simp] theorem resetBlock_input (s : State) : (resetBlock s).input = s.input := rfl
@[simp] theorem resetBlock_readLog (s : State) : (resetBlock s).readLog = s.readLog := rfl

@[simp] theorem withFetchWord_cmd (s : State) (nbits w : Nat) : (s.withFetchWord nbits w).cmd = s.cmd := rfl
@[simp] theorem withFetchWord_status (s : State) (nbits w : Nat) : (s.withFetchWord nbits w).status = s.status := rfl
@[simp] theorem withFetchWord_buf (s : State) (nbits w : Nat) : (s.withFetchWord nbits w).buf = s.buf := rfl
@[simp] theorem withFetchWord_din (s : State) (nbits w : Nat) : (s.withFetchWord nbits w).din = s.din := rfl
@[simp] theorem withFetchWord_dout (s : State) (nbits w : Nat) : (s.withFetchWord nbits w).dout = s.dout := rfl
@[simp] theorem withFetchWord_pfx (s : State) (nbits w : Nat) : (s.withFetchWord nbits w).pfx = s.pfx := rfl
@[simp] theorem withFetchWord_plen (s : State) (nbits w : Nat) : (s.withFetchWord nbits w).plen = s.plen := rfl
@[simp] theorem withFetchWord_ipv4 (s : State) (nbits w : Nat) : (s.withFetchWord nbits w).ipv4 = s.ipv4 := rfl
@[simp] theorem withFetchWord_port (s : State) (nbits w : Nat) : (s.withFetchWord nbits w).port = s.port := rfl
@[simp] theorem withFetchWord_args (s : State) (nbits w : Nat) : (s.withFetchWord nbits w).args = s.args := rfl
@[simp] theorem withFetchWord_qfi (s : State) (nbits w : Nat) : (s.withFetchWord nbits w).qfi = s.qfi := rfl
@[simp] theorem withFetchWord_rf (s : State) (nbits w : Nat) : (s.withFetchWord nbits w).rf = s.rf := rfl
@[simp] theorem withFetchWord_uf (s : State) (nbits w : Nat) : (s.withFetchWord nbits w).uf = s.uf := rfl
@[simp] theorem withFetchWord_pduid (s : State) (nbits w : Nat) : (s.withFetchWord nbits w).pduid = s.pduid := rfl
@[simp] theorem withFetchWord_input (s : State) (nbits w : Nat) : (s.withFetchWord nbits w).input = commandWrite nbits w :: s.input := rfl
@[simp] theorem withFetchWord_readLog (s : State) (nbits w : Nat) : (s.withFetchWord nbits w).readLog = s.readLog := rfl

/-- A HostWrite of one register leaves what every other register reads as. -/
theorem readReg_storeReg_of_ne {r r' : Reg} (h : r' ≠ r) (v : Nat) (s : State) :
    readReg r' (storeReg r v s) = readReg r' s := by
  cases r <;> cases r' <;> first | rfl | exact absurd rfl h

/-- A HostWrite of one register leaves the waiting events and the values read. -/
theorem storeReg_host (r : Reg) (v : Nat) (s : State) :
    (storeReg r v s).input = s.input ∧ (storeReg r v s).readLog = s.readLog := by
  cases r <;> exact ⟨rfl, rfl⟩

/-- A register's value has the register's width (20_memory.md R46). -/
theorem readReg_lt (r : Reg) (s : State) : readReg r s < 2 ^ r.width := by
  cases r <;> exact BitVec.isLt _

/-- The register map: a number names the register whose number it is (10_state.md R20). -/
theorem Reg.ofId_id (r : Reg) : Reg.ofId r.id = some r := by
  cases r <;> rfl

/-- The other way round: the number that names a register is its number. -/
theorem Reg.id_of_ofId {id : BitVec 5} {r : Reg} (h : Reg.ofId id = some r) : id = r.id := by
  have all : ∀ id : BitVec 5, (Reg.ofId id).all (fun r => decide (id = r.id)) = true := by decide
  have := all id
  rw [h] at this
  simpa using this

end Sys2Proof.Machine
end

