-- ==== Sys2Proof/Laws/Status.lean ====
section
/-! SUPPORT. The fields of STATUS after a failure, a success and a host write (60_exceptions.md R203, R204; 20_memory.md R46). -/

namespace Sys2Proof.Machine

theorem status_fields (st : BitVec 8) :
    st = st.extractLsb' 7 1 ++ statusReserved st ++ statusCode st := by
  have : ∀ x : BitVec 8, x = x.extractLsb' 7 1 ++ statusReserved x ++ statusCode x := by decide
  exact this st

@[simp] theorem statusCode_afterFail (st : BitVec 8) (k : ErrKind) : statusCode (statusAfterFail st k) = k.code := by
  revert st; cases k <;> decide

@[simp] theorem statusSticky_afterFail (st : BitVec 8) (k : ErrKind) : statusSticky (statusAfterFail st k) = true := by
  revert st; cases k <;> decide

@[simp] theorem statusReserved_afterFail (st : BitVec 8) (k : ErrKind) :
    statusReserved (statusAfterFail st k) = statusReserved st := by
  revert st; cases k <;> decide

@[simp] theorem statusCode_afterCommit (st : BitVec 8) : statusCode (statusAfterCommit st) = codeOk := by
  revert st; decide

@[simp] theorem statusSticky_afterCommit (st : BitVec 8) : statusSticky (statusAfterCommit st) = statusSticky st := by
  revert st; decide

@[simp] theorem statusReserved_afterCommit (st : BitVec 8) :
    statusReserved (statusAfterCommit st) = statusReserved st := by
  revert st; decide

@[simp] theorem statusAfterCommit_idem (st : BitVec 8) :
    statusAfterCommit (statusAfterCommit st) = statusAfterCommit st := by
  revert st; decide

@[simp] theorem statusAfterFail_idem (st : BitVec 8) (k : ErrKind) :
    statusAfterFail (statusAfterFail st k) k = statusAfterFail st k := by
  revert st; cases k <;> decide

@[simp] theorem statusCode_afterWrite (st v : BitVec 8) : statusCode (statusAfterWrite st v) = statusCode st := by
  unfold statusAfterWrite; split
  · revert st; decide
  · rfl

@[simp] theorem statusReserved_afterWrite (st v : BitVec 8) :
    statusReserved (statusAfterWrite st v) = statusReserved st := by
  unfold statusAfterWrite; split
  · revert st; decide
  · rfl

@[simp] theorem statusSticky_afterWrite (st v : BitVec 8) :
    statusSticky (statusAfterWrite st v) = (statusSticky st && !v.getLsbD 7) := by
  unfold statusAfterWrite; split
  · rename_i h; rw [h]; revert st; decide
  · rename_i h; rw [Bool.not_eq_true] at h; rw [h]; exact (Bool.and_true _).symm

/-- The status byte after a success, as a mask. -/
theorem statusAfterCommit_eq (st : BitVec 8) : statusAfterCommit st = st &&& 0xF8#8 := by
  revert st; decide

/-- The status byte after a failure, as masks. -/
theorem statusAfterFail_eq (st : BitVec 8) (k : ErrKind) :
    statusAfterFail st k = (st &&& 0x78#8) ||| 0x80#8 ||| k.code.setWidth 8 := by
  revert st; cases k <;> decide

/-- A code names its kind (60_exceptions.md R201). -/
theorem ErrKind.ofCode_code (k : ErrKind) : ErrKind.ofCode k.code = some k := by
  cases k <;> rfl

/-- No error kind has the code of success. -/
theorem ErrKind.code_ne_ok (k : ErrKind) : k.code ≠ codeOk := by
  cases k <;> decide

end Sys2Proof.Machine
end

