-- ==== Sys2Proof/Laws/Window.lean ====
section
/-! SUPPORT. What `ext` and `app` do (40_bitwindow.md R101, R106), once, by address bits: the lemmas to cite instead of unfolding
them. -/

namespace Sys2Proof.Machine

/-- Bit `m` of a payload, counted from the most significant bit of its first byte. -/
def payloadBit (p : List Byte) (m : Nat) : Bool := (p.getD (m / 8) 0).getMsbD (m % 8)

/-- The check of `app` is the window bound. -/
theorem ceilDiv8_add_le (e n : Nat) : ceilDiv8 e + n ≤ 16 ↔ e + 8 * n ≤ 128 := by
  simp only [ceilDiv8]; omega

theorem ext_ok {s n : Nat} (buf : Addr) (h : s + 8 * n ≤ 128) :
    ext buf s n = .ok ((List.range n).map (extByte buf s)) := by
  simp [ext, show ¬ (s + 8 * n > 128) by omega]

theorem ext_error {s n : Nat} (buf : Addr) (h : 128 < s + 8 * n) : ext buf s n = .error .outOfRange := by
  simp [ext, h]

/-- Both branches of `ext` give the same bits: those of the window. -/
theorem extByte_getMsbD (buf : Addr) {s i j : Nat} (h : s + 8 * (i + 1) ≤ 128) (hj : j < 8) :
    (extByte buf s i).getMsbD j = buf.getMsbD (s + 8 * i + j) := by
  unfold extByte
  split
  · rename_i ho
    rw [byte_getMsbD _ (by omega) hj]
    congr 1; omega
  · rename_i ho
    simp only [BitVec.getMsbD_or, BitVec.getMsbD_shiftLeft, BitVec.getMsbD_ushiftRight]
    by_cases hb : j + s % 8 < 8
    · rw [byte_getMsbD _ (by omega) (by omega)]
      simp only [show j < 8 - s % 8 by omega]
      simp only [hj, decide_true, Bool.not_true, Bool.false_and, Bool.and_false, Bool.or_false]
      congr 1; omega
    · have h0 : (byte buf (s / 8 + i)).getMsbD (j + s % 8) = false := by
        simp [BitVec.getMsbD, show ¬ (j + s % 8 < 8) by omega]
      rw [h0, byte_getMsbD _ (by omega) (by omega)]
      simp only [hj, show ¬ (j < 8 - s % 8) by omega, decide_true, decide_false, Bool.not_false, Bool.true_and,
        Bool.false_or]
      congr 1; omega

/-- The window read as one value of `8n` bits: the closed form of `ext` (40_bitwindow.md R102), bit by bit. -/
theorem be_ext_getMsbD {w s n k : Nat} (buf : Addr) (hw : w = 8 * n) (h : s + 8 * n ≤ 128) (hk : k < 8 * n) :
    (be w ((List.range n).map (extByte buf s))).getMsbD k = buf.getMsbD (s + k) := by
  have hi : k / 8 < n := by omega
  have h1 := be_getMsbD (w := w) ((List.range n).map (extByte buf s)) (by simpa using hw) (i := k / 8) (j := k % 8)
    (by simpa using hi) (Nat.mod_lt _ (by decide))
  rw [show 8 * (k / 8) + k % 8 = k by omega] at h1
  rw [h1]
  simp only [List.getElem_map, List.getElem_range]
  rw [extByte_getMsbD buf (by omega) (Nat.mod_lt _ (by decide))]
  congr 1; omega

/-- The same as one equation: a decoder's field is cut out of the shifted buffer. -/
theorem be_ext_eq {w s n : Nat} (buf : Addr) (hw : w = 8 * n) (h : s + 8 * n ≤ 128) :
    be w ((List.range n).map (extByte buf s)) = (buf <<< s).extractLsb' (128 - w) w := by
  apply BitVec.eq_of_getMsbD_eq
  intro k hk
  rw [be_ext_getMsbD buf hw h (by omega)]
  simp only [BitVec.getMsbD, BitVec.getLsbD_extractLsb', BitVec.getLsbD_shiftLeft]
  simp only [show s + k < 128 by omega, hk, show w - 1 - k < w by omega, show 128 - w + (w - 1 - k) < 128 by omega,
    show ¬ (128 - w + (w - 1 - k) < s) by omega, decide_true, decide_false, Bool.not_false, Bool.true_and]
  congr 1; omega

/-- EXTRACT's result, left-justified in 128 bits with zero fill. -/
theorem be_ext_justified (buf : Addr) {s n : Nat} (h : s + 8 * n ≤ 128) :
    be 128 ((List.range n).map (extByte buf s) ++ List.replicate (16 - n) 0) = mask128 (buf <<< s) (8 * n) := by
  apply Addr.ext_msb
  intro k hk
  rw [mask128_getMsbD _ (by omega)]
  have h1 := be_getMsbD (w := 128) ((List.range n).map (extByte buf s) ++ List.replicate (16 - n) 0)
    (by simp; omega) (i := k / 8) (j := k % 8) (by simp; omega) (Nat.mod_lt _ (by decide))
  rw [show 8 * (k / 8) + k % 8 = k by omega] at h1
  rw [h1]
  by_cases hn : k < 8 * n
  · rw [List.getElem_append_left (by simp; omega)]
    simp only [List.getElem_map, List.getElem_range]
    rw [extByte_getMsbD buf (by omega) (Nat.mod_lt _ (by decide))]
    rw [BitVec.getMsbD_shiftLeft]
    simp only [hn, decide_true, Bool.and_true]
    congr 1; omega
  · rw [List.getElem_append_right (by simp; omega)]
    simp [hn]

/-- One turn of `app`'s loop: the eight bits from `8k + o` on take the payload byte (over an OR when `o ≠ 0`), no other bit
changes. -/
theorem appByte_getMsbD (b : Addr) (x : Byte) {o k m : Nat} (ho : o < 8) (hk : 8 * (k + 1) + o ≤ 128) (hm : m < 128) :
    (appByte o b k x).getMsbD m =
      if 8 * k + o ≤ m ∧ m < 8 * k + o + 8 then
        (x.getMsbD (m - (8 * k + o)) || (decide (o ≠ 0) && b.getMsbD m))
      else b.getMsbD m := by
  unfold appByte
  split
  · rename_i h0
    subst h0
    rw [setByte_getMsbD _ _ (by omega) hm]
    by_cases hd : m / 8 = k
    · have : 8 * k + 0 ≤ m ∧ m < 8 * k + 0 + 8 := by omega
      simp only [hd, this, if_true, and_self]
      rw [show m - (8 * k + 0) = m % 8 by omega]; simp
    · have : ¬ (8 * k + 0 ≤ m ∧ m < 8 * k + 0 + 8) := by omega
      simp only [hd, this, if_false]
  · rename_i h0
    have hget : ∀ (v : Addr) (y : Byte) (i : Nat), i < 16 →
        (setByte v i (byte v i ||| y)).getMsbD m = (v.getMsbD m || (decide (m / 8 = i) && y.getMsbD (m % 8))) := by
      intro v y i hi
      rw [setByte_getMsbD _ _ hi hm]
      by_cases hd : m / 8 = i
      · simp only [hd, if_true, BitVec.getMsbD_or, decide_true, Bool.true_and]
        rw [byte_getMsbD _ hi (Nat.mod_lt _ (by decide))]
        rw [show 8 * i + m % 8 = m by omega]
      · simp [hd]
    simp only
    rw [hget _ _ _ (by omega), hget _ _ _ (by omega)]
    simp only [BitVec.getMsbD_ushiftRight, BitVec.getMsbD_shiftLeft]
    by_cases h1 : m / 8 = k
    · have h2 : ¬ (m / 8 = k + 1) := by omega
      simp only [h1, show ¬ (k = k + 1) by omega, decide_true, decide_false, Bool.true_and, Bool.false_and, Bool.or_false]
      by_cases h3 : m % 8 < o
      · have : ¬ (8 * k + o ≤ m ∧ m < 8 * k + o + 8) := by omega
        simp [this, h3]
      · have h4 : 8 * k + o ≤ m ∧ m < 8 * k + o + 8 := by omega
        simp only [h4, h3, h0, if_true, and_self, decide_true, decide_false, Bool.not_false, Bool.true_and, ne_eq,
          not_false_eq_true]
        rw [show m - (8 * k + o) = m % 8 - o by omega, Bool.or_comm]
        simp [Nat.mod_lt]
    · by_cases h2 : m / 8 = k + 1
      · simp only [h2, show ¬ (k + 1 = k) by omega, decide_true, decide_false, Bool.true_and, Bool.false_and, Bool.or_false]
        by_cases h3 : m % 8 < o
        · have h4 : 8 * k + o ≤ m ∧ m < 8 * k + o + 8 := by omega
          simp only [h4, h0, if_true, and_self, decide_true, Bool.true_and, ne_eq, not_false_eq_true]
          rw [show m - (8 * k + o) = m % 8 + (8 - o) by omega, Bool.or_comm]
        · have h4 : ¬ (8 * k + o ≤ m ∧ m < 8 * k + o + 8) := by omega
          simp only [h4, if_false]
          have : x.getMsbD (m % 8 + (8 - o)) = false := by simp [BitVec.getMsbD, show ¬ (m % 8 + (8 - o) < 8) by omega]
          simp only [this, Bool.or_false]
      · have h4 : ¬ (8 * k + o ≤ m ∧ m < 8 * k + o + 8) := by omega
        simp [h1, h2, h4]

/-- `app`'s loop: the window takes the payload (over an OR when `o ≠ 0`), no other bit changes. -/
theorem appLoop_getMsbD {o : Nat} (ho : o < 8) (p : List Byte) :
    ∀ (b : Addr) (k m : Nat), 8 * (k + p.length) + o ≤ 128 → m < 128 →
    (appLoop o b k p).getMsbD m =
      if 8 * k + o ≤ m ∧ m < 8 * k + o + 8 * p.length then
        (payloadBit p (m - (8 * k + o)) || (decide (o ≠ 0) && b.getMsbD m))
      else b.getMsbD m := by
  induction p with
  | nil => intro b k m _ _; simp [appLoop]
  | cons x p ih =>
    intro b k m hk hm
    simp only [List.length_cons] at hk ⊢
    rw [appLoop, ih _ _ _ (by omega) hm, appByte_getMsbD b x ho (by omega) hm]
    by_cases h1 : 8 * k + o ≤ m ∧ m < 8 * k + o + 8
    · have h2 : ¬ (8 * (k + 1) + o ≤ m ∧ m < 8 * (k + 1) + o + 8 * p.length) := by omega
      have h3 : 8 * k + o ≤ m ∧ m < 8 * k + o + 8 * (p.length + 1) := by omega
      simp only [h1, h2, h3, and_self, if_true, if_false, payloadBit]
      rw [show (m - (8 * k + o)) / 8 = 0 by omega, show (m - (8 * k + o)) % 8 = m - (8 * k + o) by omega]
      simp
    · by_cases h2 : 8 * (k + 1) + o ≤ m ∧ m < 8 * (k + 1) + o + 8 * p.length
      · have h3 : 8 * k + o ≤ m ∧ m < 8 * k + o + 8 * (p.length + 1) := by omega
        rw [if_pos h2, if_neg h1, if_pos h3]
        simp only [payloadBit]
        rw [show (m - (8 * k + o)) / 8 = (m - (8 * (k + 1) + o)) / 8 + 1 by omega,
          show (m - (8 * k + o)) % 8 = (m - (8 * (k + 1) + o)) % 8 by omega]
        simp
      · have h3 : ¬ (8 * k + o ≤ m ∧ m < 8 * k + o + 8 * (p.length + 1)) := by omega
        simp only [h1, h2, h3, if_false]

theorem app_error {e : Nat} (buf : Addr) {p : List Byte} (h : 128 < e + 8 * p.length) :
    app buf e p = .error .tooShortToMarshal := by
  have := ceilDiv8_add_le e p.length
  simp only [app, show ceilDiv8 e + p.length > 16 by omega, if_true]

/-- `app` where the window fits: the window's bits and every other bit. -/
theorem app_ok {e : Nat} (buf : Addr) {p : List Byte} (h : e + 8 * p.length ≤ 128) :
    ∃ r, app buf e p = .ok r ∧ ∀ m, m < 128 → r.getMsbD m =
      if e ≤ m ∧ m < e + 8 * p.length then
        (payloadBit p (m - e) || (decide (e % 8 ≠ 0) && buf.getMsbD m))
      else buf.getMsbD m := by
  have hc := ceilDiv8_add_le e p.length
  refine ⟨appLoop (e % 8) buf (e / 8) p, by simp only [app, show ¬ (ceilDiv8 e + p.length > 16) by omega, if_false], ?_⟩
  intro m hm
  rw [appLoop_getMsbD (Nat.mod_lt _ (by decide)) p buf (e / 8) m (by omega) hm]
  rw [show 8 * (e / 8) + e % 8 = e by omega]

/-- The payload bits of the bytes of a value are the value's bits. -/
theorem payloadBit_bytesOf {n w m : Nat} (hw : w = 8 * n) (v : BitVec w) (hm : m < w) :
    payloadBit (bytesOf n v) m = v.getMsbD m := by
  have hi : m / 8 < n := by omega
  have h := bytesOf_getElem_getMsbD hw v hi (Nat.mod_lt m (by decide : 0 < 8))
  simp only [payloadBit]
  rw [List.getD_eq_getElem _ _ (by simpa using hi), h]
  congr 1; omega

/-- The payload bits of INSERT are the leading bits of DIN. -/
theorem payloadBit_payload (s : State) {n m : Nat} (hn : n ≤ 16) (hm : m < 8 * n) :
    payloadBit (payload s n) m = s.din.getMsbD m := by
  have hi : m / 8 < (payload s n).length := by simp [payload]; omega
  simp only [payloadBit]
  rw [List.getD_eq_getElem _ _ hi]
  simp only [payload, List.getElem_map, List.getElem_range]
  rw [byte_getMsbD _ (by omega) (Nat.mod_lt _ (by decide))]
  congr 1; omega

@[simp] theorem payload_length (s : State) (n : Nat) : (payload s n).length = n := by simp [payload]

end Sys2Proof.Machine
end

