-- ==== Sys2Proof/Laws/Exec.lean ====
section
/-! SUPPORT. Everything a command can do, said once: it fails as the error table says, or it commits with its result registers
written. Cite these instead of unfolding a meaning. -/

namespace Sys2Proof.Machine

theorem fail_eq (k : ErrKind) (s : State) : fail k s = .next { s with status := statusAfterFail s.status k } := rfl

theorem commit_eq (t : State) : commit t = .next { t with status := statusAfterCommit t.status } := rfl

/-- `t` differs from `s` in the registers listed, and in no other register, list or bit of STATUS. -/
def WritesOnly (regs : List Reg) (s t : State) : Prop :=
  (∀ r, r ∉ regs → readReg r t = readReg r s) ∧ t.status = s.status ∧ t.input = s.input ∧ t.readLog = s.readLog

/-- EXTRACT, in range. -/
theorem execExtract_ok {b n : Nat} (s : State) (h : b + 8 * n ≤ 128) :
    execExtract b n s = commit { s with dout := mask128 (s.buf <<< b) (8 * n) } := by
  simp only [execExtract, ext_ok _ h, be_ext_justified _ h]

/-- EXTRACT, out of range. -/
theorem execExtract_error {b n : Nat} (s : State) (h : 128 < b + 8 * n) : execExtract b n s = fail .outOfRange s := by
  simp only [execExtract, ext_error _ h]

/-- INSERT, in range: the new BUF, bit by bit. -/
theorem execInsert_ok {e n : Nat} (s : State) (h : e + 8 * n ≤ 128) :
    ∃ r, execInsert e n s = commit { s with buf := r } ∧ ∀ m, m < 128 → r.getMsbD m =
      if e ≤ m ∧ m < e + 8 * n then (s.din.getMsbD (m - e) || (decide (e % 8 ≠ 0) && s.buf.getMsbD m))
      else s.buf.getMsbD m := by
  obtain ⟨r, hr, hbits⟩ := app_ok (e := e) s.buf (p := payload s n) (by simpa using h)
  refine ⟨r, ?_, ?_⟩
  · have := ceilDiv8_add_le e n
    simp only [execInsert, show ¬ (ceilDiv8 e + n > 16) by omega, if_false, hr]
  · intro m hm
    rw [hbits m hm, payload_length]
    by_cases hw : e ≤ m ∧ m < e + 8 * n
    · rw [if_pos hw, if_pos hw, payloadBit_payload s (by omega) (by omega)]
    · rw [if_neg hw, if_neg hw]

/-- INSERT, out of range. -/
theorem execInsert_error {e n : Nat} (s : State) (h : 128 < e + 8 * n) :
    execInsert e n s = fail .tooShortToMarshal s := by
  have := ceilDiv8_add_le e n
  simp only [execInsert, show ceilDiv8 e + n > 16 by omega, if_true]

/-- An append of a value of `8n` bits into a base that is zero from the append position on, bit by bit. -/
theorem app_bytesOf_ok {e n w : Nat} (hw : w = 8 * n) (buf : Addr) (v : BitVec w) (h : e + 8 * n ≤ 128)
    (hz : ∀ m, e ≤ m → m < 128 → buf.getMsbD m = false) :
    ∃ r, app buf e (bytesOf n v) = .ok r ∧ ∀ m, m < 128 → r.getMsbD m =
      if m < e then buf.getMsbD m else if m < e + w then v.getMsbD (m - e) else false := by
  obtain ⟨r, hr, hbits⟩ := app_ok (e := e) buf (p := bytesOf n v) (by simpa using h)
  refine ⟨r, hr, ?_⟩
  intro m hm
  rw [hbits m hm, bytesOf_length]
  by_cases h1 : m < e
  · rw [if_neg (by omega), if_pos h1]
  · rw [if_neg h1]
    by_cases h2 : m < e + w
    · rw [if_pos (by omega), if_pos h2, payloadBit_bytesOf hw v (by omega), hz m (by omega) hm]; simp
    · rw [if_neg (by omega), if_neg h2, hz m (by omega) hm]

theorem prefixBase_getMsbD (s : State) {m : Nat} (h : prefixLen s ≤ 128) :
    (prefixBase s).getMsbD m = (s.pfx.getMsbD m && decide (m < prefixLen s)) :=
  mask128_getMsbD _ h

/-- The first append of both encoders: the canonical prefix and the IPv4 payload after it. -/
theorem app_ipv4_ok (s : State) (h : prefixLen s + 32 ≤ 128) :
    ∃ r, app (prefixBase s) (prefixLen s) (ipv4Bytes s) = .ok r ∧ ∀ m, m < 128 → r.getMsbD m =
      if m < prefixLen s then s.pfx.getMsbD m
      else if m < prefixLen s + 32 then s.ipv4.getMsbD (m - prefixLen s) else false := by
  obtain ⟨r, hr, hb⟩ := app_bytesOf_ok (e := prefixLen s) (n := 4) (by rfl) (prefixBase s) s.ipv4 (by omega)
    (fun m h1 _ => by rw [prefixBase_getMsbD s (by omega)]; simp [show ¬ (m < prefixLen s) by omega])
  refine ⟨r, hr, fun m hm => ?_⟩
  rw [hb m hm, prefixBase_getMsbD s (by omega)]
  by_cases h1 : m < prefixLen s <;> simp [h1]

theorem app_ipv4_error (s : State) (h : 128 < prefixLen s + 32) :
    app (prefixBase s) (prefixLen s) (ipv4Bytes s) = .error .tooShortToMarshal :=
  app_error _ (by simp [ipv4Bytes]; omega)

/-- The two appends of an encoder: prefix, IPv4 payload, then a value of `8n` bits. -/
theorem app_two_ok {n w : Nat} (hw : w = 8 * n) (s : State) (v : BitVec w) (h : prefixLen s + 32 + w ≤ 128) :
    ∃ b1 b2, app (prefixBase s) (prefixLen s) (ipv4Bytes s) = .ok b1 ∧
      app b1 (prefixLen s + 32) (bytesOf n v) = .ok b2 ∧ ∀ m, m < 128 → b2.getMsbD m =
        if m < prefixLen s then s.pfx.getMsbD m
        else if m < prefixLen s + 32 then s.ipv4.getMsbD (m - prefixLen s)
        else if m < prefixLen s + 32 + w then v.getMsbD (m - (prefixLen s + 32)) else false := by
  obtain ⟨b1, h1, hb1⟩ := app_ipv4_ok s (by omega)
  obtain ⟨b2, h2, hb2⟩ := app_bytesOf_ok (e := prefixLen s + 32) hw b1 v (by omega)
    (fun m hm1 hm => by
      rw [hb1 m hm, if_neg (show ¬ (m < prefixLen s) by omega), if_neg (show ¬ (m < prefixLen s + 32) by omega)])
  refine ⟨b1, b2, h1, h2, fun m hm => ?_⟩
  rw [hb2 m hm]
  by_cases hc : m < prefixLen s + 32
  · rw [if_pos hc, hb1 m hm, if_pos hc, if_pos hc]
  · rw [if_neg hc, if_neg (show ¬ (m < prefixLen s) by omega), if_neg hc]

/-- DST_ENCODE, where the layout fits: BUF, address bit by address bit. -/
theorem execDstEncode_ok (s : State) (h : prefixLen s ≤ 56) :
    ∃ b, execDstEncode s = commit { s with buf := b } ∧ ∀ m, m < 128 → b.getMsbD m =
      if m < prefixLen s then s.pfx.getMsbD m
      else if m < prefixLen s + 32 then s.ipv4.getMsbD (m - prefixLen s)
      else if m < prefixLen s + 32 + 40 then (argsBlock s).getMsbD (m - (prefixLen s + 32)) else false := by
  obtain ⟨b1, b2, h1, h2, hb⟩ := app_two_ok (n := 5) (by rfl) s (argsBlock s) (by omega)
  refine ⟨b2, ?_, hb⟩
  simp only [execDstEncode, show ¬ (prefixLen s > 128) by omega, if_false, h1, h2]

/-- DST_ENCODE with the invalid length. -/
theorem execDstEncode_prefixLength (s : State) (h : 128 < prefixLen s) : execDstEncode s = fail .prefixLength s := by
  simp only [execDstEncode, show prefixLen s > 128 by omega, if_true]

/-- DST_ENCODE where one of the appends does not fit. -/
theorem execDstEncode_short (s : State) (h : 57 ≤ prefixLen s) (h' : prefixLen s ≤ 128) :
    execDstEncode s = fail .tooShortToMarshal s := by
  simp only [execDstEncode, show ¬ (prefixLen s > 128) by omega, if_false]
  by_cases h4 : prefixLen s + 32 ≤ 128
  · obtain ⟨b1, h1, _⟩ := app_ipv4_ok s h4
    simp only [h1, app_error b1 (p := bytesOf 5 (argsBlock s)) (e := prefixLen s + 32) (by simp; omega)]
  · simp only [app_ipv4_error s (by omega)]

/-- SRC_ENCODE, where the appends fit: the buffer before the trailer write, address bit by address bit. -/
theorem execSrcEncode_ok (s : State) (h : prefixLen s ≤ 80) :
    ∃ b, execSrcEncode s = commit { s with buf := setTrailer b (prefixLen s) } ∧ ∀ m, m < 128 → b.getMsbD m =
      if m < prefixLen s then s.pfx.getMsbD m
      else if m < prefixLen s + 32 then s.ipv4.getMsbD (m - prefixLen s)
      else if m < prefixLen s + 32 + 16 then s.port.getMsbD (m - (prefixLen s + 32)) else false := by
  obtain ⟨b1, b2, h1, h2, hb⟩ := app_two_ok (n := 2) (by rfl) s s.port (by omega)
  refine ⟨b2, ?_, hb⟩
  simp only [execSrcEncode, show ¬ (prefixLen s > 128) by omega, if_false, h1, portBytes, h2]

/-- SRC_ENCODE with the invalid length. -/
theorem execSrcEncode_prefixLength (s : State) (h : 128 < prefixLen s) : execSrcEncode s = fail .prefixLength s := by
  simp only [execSrcEncode, show prefixLen s > 128 by omega, if_true]

/-- SRC_ENCODE where one of the appends does not fit. -/
theorem execSrcEncode_short (s : State) (h : 81 ≤ prefixLen s) (h' : prefixLen s ≤ 128) :
    execSrcEncode s = fail .tooShortToMarshal s := by
  simp only [execSrcEncode, show ¬ (prefixLen s > 128) by omega, if_false]
  by_cases h4 : prefixLen s + 32 ≤ 128
  · obtain ⟨b1, h1, _⟩ := app_ipv4_ok s h4
    simp only [h1, portBytes, app_error b1 (p := bytesOf 2 s.port) (e := prefixLen s + 32) (by simp; omega)]
  · simp only [app_ipv4_error s (by omega)]

/-- DST_DECODE, in range. -/
theorem execDstDecode_ok {b : Nat} (s : State) (h : b ≤ 56) :
    execDstDecode b s = commit (setArgsFields ((s.buf <<< (b + 32)).extractLsb' 88 40)
      { s with pfx := mask128 s.buf b, plen := BitVec.ofNat 8 b, ipv4 := (s.buf <<< b).extractLsb' 96 32 }) := by
  simp only [execDstDecode, ext_ok s.buf (show b + 8 * 4 ≤ 128 by omega),
    ext_ok s.buf (show b + 32 + 8 * 5 ≤ 128 by omega),
    be_ext_eq (w := 40) s.buf rfl (show b + 32 + 8 * 5 ≤ 128 by omega),
    be_ext_eq (w := 32) s.buf rfl (show b + 8 * 4 ≤ 128 by omega)]

/-- DST_DECODE, out of range. -/
theorem execDstDecode_error {b : Nat} (s : State) (h : 57 ≤ b) : execDstDecode b s = fail .outOfRange s := by
  simp only [execDstDecode]
  by_cases h4 : b + 8 * 4 ≤ 128
  · simp only [ext_ok s.buf h4, ext_error s.buf (show 128 < b + 32 + 8 * 5 by omega)]
  · simp only [ext_error s.buf (show 128 < b + 8 * 4 by omega)]

/-- SRC_DECODE_BASIC, in range. -/
theorem execSrcDecodeBasic_ok {b : Nat} (s : State) (h0 : 1 ≤ b) (h : b ≤ 96) :
    execSrcDecodeBasic b s = commit { s with
      pfx := mask128 s.buf b, plen := BitVec.ofNat 8 b, ipv4 := (s.buf <<< b).extractLsb' 96 32, port := 0 } := by
  simp only [execSrcDecodeBasic, show ¬ (b = 0) by omega, show ¬ (b + 32 > 128) by omega, if_false,
    ext_ok s.buf (show b + 8 * 4 ≤ 128 by omega), be_ext_eq (w := 32) s.buf rfl (show b + 8 * 4 ≤ 128 by omega)]

/-- SRC_DECODE_VENDOR, in range. -/
theorem execSrcDecodeVendor_ok (s : State) (h0 : 1 ≤ vendorLen s.buf) (h : vendorLen s.buf ≤ 73) :
    execSrcDecodeVendor s = commit { s with
      pfx := mask128 s.buf (vendorLen s.buf), plen := BitVec.ofNat 8 (vendorLen s.buf),
      ipv4 := (s.buf <<< vendorLen s.buf).extractLsb' 96 32,
      port := (s.buf <<< (vendorLen s.buf + 32)).extractLsb' 112 16 } := by
  generalize hl : vendorLen s.buf = l at *
  simp only [execSrcDecodeVendor, hl, show ¬ (l = 0) by omega, show ¬ (l + 32 > 128) by omega,
    show ¬ (l + 32 + 16 + 7 > 128) by omega, if_false, ext_ok s.buf (show l + 8 * 4 ≤ 128 by omega),
    ext_ok s.buf (show l + 32 + 8 * 2 ≤ 128 by omega),
    be_ext_eq (w := 32) s.buf rfl (show l + 8 * 4 ≤ 128 by omega),
    be_ext_eq (w := 16) s.buf rfl (show l + 32 + 8 * 2 ≤ 128 by omega)]

/-- SRC_DECODE_VENDOR where the length field leaves no room. -/
theorem execSrcDecodeVendor_error (s : State) (h : 74 ≤ vendorLen s.buf) :
    execSrcDecodeVendor s = fail .outOfRange s := by
  generalize hl : vendorLen s.buf = l at *
  simp only [execSrcDecodeVendor, hl, show ¬ (l = 0) by omega, if_false]
  by_cases h4 : l + 32 > 128
  · rw [if_pos h4]
  · simp only [if_neg h4, ext_ok s.buf (show l + 8 * 4 ≤ 128 by omega), show l + 32 + 16 + 7 > 128 by omega, if_true]

/-- The self-encoded length is BUF's value modulo 128. -/
theorem vendorLen_eq (v : Addr) : vendorLen v = v.toNat % 128 := by
  have h : ∀ x : Byte, (x &&& 0x7F#8).toNat = x.toNat % 128 := by decide
  rw [vendorLen, h, byte]
  simp [BitVec.extractLsb'_toNat]

/-- The two ways a command can end. -/
def EndsAs (i : Instr) (s : State) : Prop :=
  (∃ k, errorTable i s = some k ∧ exec i s = fail k s) ∨
  (errorTable i s = none ∧ ∃ t, exec i s = commit t ∧ WritesOnly (resultRegs i) s t)

theorem extract_ends (b n : Nat) (s : State) : EndsAs (.extract b n) s := by
  by_cases h : b + 8 * n ≤ 128
  · refine .inr ⟨if_neg (by omega), _, execExtract_ok s h, ?_, rfl, rfl, rfl⟩
    intro r (hr : r ∉ [Reg.dout])
    cases r <;> first | rfl | exact absurd (by decide) hr
  · exact .inl ⟨_, if_pos (by omega), execExtract_error s (by omega)⟩

theorem insert_ends (e n : Nat) (s : State) : EndsAs (.insert e n) s := by
  by_cases h : e + 8 * n ≤ 128
  · obtain ⟨b, hb, _⟩ := execInsert_ok s h
    refine .inr ⟨if_neg (by omega), _, hb, ?_, rfl, rfl, rfl⟩
    intro r (hr : r ∉ [Reg.buf])
    cases r <;> first | rfl | exact absurd (by decide) hr
  · exact .inl ⟨_, if_pos (by omega), execInsert_error s (by omega)⟩

theorem argsPack_ends (s : State) : EndsAs .argsPack s := by
  refine .inr ⟨rfl, _, rfl, ?_, rfl, rfl, rfl⟩
  intro r (hr : r ∉ [Reg.args])
  cases r <;> first | rfl | exact absurd (by decide) hr

theorem argsUnpack_ends (s : State) : EndsAs .argsUnpack s := by
  refine .inr ⟨rfl, _, rfl, ?_, rfl, rfl, rfl⟩
  intro r (hr : r ∉ [Reg.qfi, .rf, .uf, .pduid])
  cases r <;> first | rfl | exact absurd (by decide) hr

theorem dstEncode_ends (s : State) : EndsAs .dstEncode s := by
  have hp : prefixLen s = s.plen.toNat := rfl
  by_cases h1 : 128 < prefixLen s
  · exact .inl ⟨_, if_pos (by omega), execDstEncode_prefixLength s h1⟩
  · by_cases h2 : 57 ≤ prefixLen s
    · exact .inl ⟨_, (if_neg (by omega)).trans (if_pos (by omega)), execDstEncode_short s h2 (by omega)⟩
    · obtain ⟨b, hb, _⟩ := execDstEncode_ok s (by omega)
      refine .inr ⟨(if_neg (by omega)).trans (if_neg (by omega)), _, hb, ?_, rfl, rfl, rfl⟩
      intro r (hr : r ∉ [Reg.buf])
      cases r <;> first | rfl | exact absurd (by decide) hr

theorem dstDecode_ends (b : Nat) (s : State) : EndsAs (.dstDecode b) s := by
  by_cases h : b ≤ 56
  · refine .inr ⟨if_neg (by omega), _, execDstDecode_ok s h, ?_, rfl, rfl, rfl⟩
    intro r (hr : r ∉ [Reg.pfx, .plen, .ipv4, .qfi, .rf, .uf, .pduid])
    cases r <;> first | rfl | exact absurd (by decide) hr
  · exact .inl ⟨_, if_pos (by omega), execDstDecode_error s (by omega)⟩

theorem srcEncode_ends (s : State) : EndsAs .srcEncode s := by
  have hp : prefixLen s = s.plen.toNat := rfl
  by_cases h1 : 128 < prefixLen s
  · exact .inl ⟨_, if_pos (by omega), execSrcEncode_prefixLength s h1⟩
  · by_cases h2 : 81 ≤ prefixLen s
    · exact .inl ⟨_, (if_neg (by omega)).trans (if_pos (by omega)), execSrcEncode_short s h2 (by omega)⟩
    · obtain ⟨b, hb, _⟩ := execSrcEncode_ok s (by omega)
      refine .inr ⟨(if_neg (by omega)).trans (if_neg (by omega)), _, hb, ?_, rfl, rfl, rfl⟩
      intro r (hr : r ∉ [Reg.buf])
      cases r <;> first | rfl | exact absurd (by decide) hr

theorem srcDecodeBasic_ends (b : Nat) (s : State) : EndsAs (.srcDecodeBasic b) s := by
  by_cases h0 : b = 0
  · exact .inl ⟨_, if_pos h0, if_pos h0⟩
  · by_cases h : b ≤ 96
    · refine .inr ⟨(if_neg h0).trans (if_neg (by omega)), _, execSrcDecodeBasic_ok s (by omega) h, ?_, rfl, rfl, rfl⟩
      intro r (hr : r ∉ [Reg.pfx, .plen, .ipv4, .port])
      cases r <;> first | rfl | exact absurd (by decide) hr
    · exact .inl ⟨_, (if_neg h0).trans (if_pos (by omega)), (if_neg h0).trans (if_pos (by omega))⟩

theorem srcDecodeVendor_ends (s : State) : EndsAs .srcDecodeVendor s := by
  have hl := vendorLen_eq s.buf
  by_cases h0 : vendorLen s.buf = 0
  · exact .inl ⟨_, if_pos (by omega), if_pos h0⟩
  · by_cases h : vendorLen s.buf ≤ 73
    · refine .inr ⟨(if_neg (by omega)).trans (if_neg (by omega)), _, execSrcDecodeVendor_ok s (by omega) h, ?_, rfl, rfl, rfl⟩
      intro r (hr : r ∉ [Reg.pfx, .plen, .ipv4, .port])
      cases r <;> first | rfl | exact absurd (by decide) hr
    · exact .inl ⟨_, (if_neg (by omega)).trans (if_pos (by omega)), execSrcDecodeVendor_error s (by omega)⟩

/-- Everything a command can do: it fails as the error table says, or it commits with only its result registers written. -/
theorem exec_cases (i : Instr) (s : State) :
    (∃ k, errorTable i s = some k ∧ exec i s = fail k s) ∨
    (errorTable i s = none ∧ ∃ t, exec i s = commit t ∧ WritesOnly (resultRegs i) s t) := by
  cases i with
  | extract b n => exact extract_ends b n s
  | insert e n => exact insert_ends e n s
  | argsPack => exact argsPack_ends s
  | argsUnpack => exact argsUnpack_ends s
  | dstEncode => exact dstEncode_ends s
  | dstDecode b => exact dstDecode_ends b s
  | srcEncode => exact srcEncode_ends s
  | srcDecodeBasic b => exact srcDecodeBasic_ends b s
  | srcDecodeVendor => exact srcDecodeVendor_ends s

/-- The error table names neither the kind that cannot occur nor that of an illegal word. -/
theorem errorTable_kinds {i : Instr} {s : State} {k : ErrKind} (h : errorTable i s = some k) :
    k ≠ .tooShortToParse ∧ k ≠ .illegalCmd := by
  cases i <;> simp only [errorTable] at h <;> (repeat' split at h) <;> cases h <;> exact ⟨by decide, by decide⟩

/-- A command that answers `t`: it failed and changed STATUS only, or it succeeded and kept to its row of the write matrix. -/
theorem exec_next_cases {i : Instr} {s t : State} (h : exec i s = .next t) :
    (∃ k, errorTable i s = some k ∧ t = { s with status := statusAfterFail s.status k }) ∨
    (errorTable i s = none ∧ t.status = statusAfterCommit s.status ∧
      ∀ r, r ≠ .status → r ∉ resultRegs i → readReg r t = readReg r s) := by
  rcases exec_cases i s with ⟨k, hk, he⟩ | ⟨hn, u, he, hw⟩
  · rw [he, fail_eq] at h
    cases h
    exact .inl ⟨k, hk, rfl⟩
  · rw [he, commit_eq] at h
    cases h
    refine .inr ⟨hn, by rw [hw.2.1], fun r h1 h2 => ?_⟩
    rw [← hw.1 r h2]
    cases r <;> first | rfl | exact absurd rfl h1

end Sys2Proof.Machine
end

