-- ==== Sys2Proof/Laws/PerInstr.lean ====
section
/-! SUPPORT. A statement made once per constructor of `Instr`: the fields of its encoded word. -/

namespace Sys2Proof.Laws.EncodedFields

/-- The encoded word has the command's opcode and operand fields, and zero reserved fields (30_encoding.md R60). -/
def Statement (i : Instr) : Prop :=
  fieldOpc (encode i) = i.opc ∧ fieldBit (encode i) = i.bitField ∧ fieldNb (encode i) = i.nbField ∧
    fieldRsv0 (encode i) = 0 ∧ fieldRsv1 (encode i) = 0

theorem of_packFields (i : Instr) : Statement i := by simp [Statement, encode]

theorem extract (bit nb : Nat) : Statement (.extract bit nb) := of_packFields _
theorem insert (bit nb : Nat) : Statement (.insert bit nb) := of_packFields _
theorem argsPack : Statement .argsPack := of_packFields _
theorem argsUnpack : Statement .argsUnpack := of_packFields _
theorem dstEncode : Statement .dstEncode := of_packFields _
theorem dstDecode (bit : Nat) : Statement (.dstDecode bit) := of_packFields _
theorem srcEncode : Statement .srcEncode := of_packFields _
theorem srcDecodeBasic (bit : Nat) : Statement (.srcDecodeBasic bit) := of_packFields _
theorem srcDecodeVendor : Statement .srcDecodeVendor := of_packFields _

end Sys2Proof.Laws.EncodedFields
end

