-- ==== Sys2Proof/Laws/Step.lean ====
section
/-! SUPPORT. Everything one step can do, said once. -/

namespace Sys2Proof.Machine

theorem step_idle {s : State} (h : s.input = []) : step s = .next s := by
  simp [step, serveNext, h, idle]

theorem step_cons {s : State} {a : Input} {rest : List Input} (h : s.input = a :: rest) :
    step s = takeInput a { s with input := rest } := by
  simp [step, serveNext, h]

/-- A command never stops the block, and leaves what is waiting and what was read. -/
theorem exec_next (i : Instr) (s : State) :
    ∃ t, exec i s = .next t ∧ t.input = s.input ∧ t.readLog = s.readLog := by
  rcases exec_cases i s with ⟨k, _, h⟩ | ⟨_, t, h, hw⟩
  · exact ⟨_, h, rfl, rfl⟩
  · exact ⟨_, h, hw.2.2.1, hw.2.2.2⟩

/-- A write of CMD: the illegal word fails, the legal one runs. -/
theorem runCommand_cases (w : CmdWord) (s : State) :
    (∃ e, decode w = .error e ∧ runCommand w s = fail .illegalCmd { s with cmd := w }) ∨
    (∃ i, decode w = .ok i ∧ runCommand w s = exec i { s with cmd := w }) := by
  unfold runCommand
  cases h : decode w with
  | error e => exact .inl ⟨e, rfl, rfl⟩
  | ok i => exact .inr ⟨i, rfl, rfl⟩

/-- A host write of a fitting value: nothing for a reserved number, a command for CMD, else the register. -/
theorem hostWrite_cases {id : BitVec 5} {v : Nat} (s : State) (h : valueFits id v = true) :
    (Reg.ofId id = none ∧ hostWrite id v s = .next s) ∨
    (Reg.ofId id = some .cmd ∧ hostWrite id v s = runCommand (BitVec.ofNat 32 v) s) ∨
    (∃ r, Reg.ofId id = some r ∧ r ≠ .cmd ∧ hostWrite id v s = .next (storeReg r v s)) := by
  simp only [hostWrite, h, if_true, writeReg]
  cases hr : Reg.ofId id with
  | none => exact .inl ⟨rfl, rfl⟩
  | some r =>
    by_cases hc : r = .cmd
    · subst hc; exact .inr (.inl ⟨rfl, rfl⟩)
    · refine .inr (.inr ⟨r, rfl, hc, ?_⟩)
      cases r <;> first | rfl | exact absurd rfl hc

/-- A HostWrite of a register other than CMD, by the register's name. -/
theorem takeInput_stored {r : Reg} {v : Nat} (s : State) (hr : r ≠ .cmd) (hv : v < 2 ^ r.width) :
    takeInput (.write r.id v) s = .next (storeReg r v s) := by
  have hf : valueFits r.id v = true := by simp [valueFits, Reg.ofId_id, hv]
  rcases hostWrite_cases s hf with ⟨h, _⟩ | ⟨h, _⟩ | ⟨x, h, _, hw⟩
  · rw [Reg.ofId_id] at h; cases h
  · rw [Reg.ofId_id] at h; cases h; exact absurd rfl hr
  · rw [Reg.ofId_id] at h; cases h; exact hw

/-- A host write of a value wider than the register is refused. -/
theorem hostWrite_refused {id : BitVec 5} {v : Nat} (s : State) (h : valueFits id v = false) :
    hostWrite id v s = .refused .valueWiderThanRegister := by
  simp [hostWrite, h]

/-- A word written to CMD runs as that word. -/
theorem takeInput_cmd (w : CmdWord) (s : State) : takeInput (.write 0x00 w.toNat) s = runCommand w s := by
  have hf : valueFits 0x00 w.toNat = true := decide_eq_true w.isLt
  show hostWrite 0x00 w.toNat s = runCommand w s
  rw [hostWrite, if_pos hf]
  show runCommand (BitVec.ofNat 32 w.toNat) s = _
  rw [BitVec.ofNat_toNat, BitVec.setWidth_eq]

/-- How a step ends in a next state, by what was waiting. -/
theorem step_next_cases {s t : State} (h : step s = .next t) :
    (s.input = [] ∧ t = s) ∨
    ∃ a rest, s.input = a :: rest ∧ takeInput a { s with input := rest } = .next t := by
  cases hs : s.input with
  | nil => rw [step_idle hs] at h; exact .inl ⟨rfl, by cases h; rfl⟩
  | cons a rest => rw [step_cons hs] at h; exact .inr ⟨a, rest, rfl, h⟩

/-- Everything a step that ends in a next state can have done. -/
inductive Served (s : State) : State → Prop where
  /-- Nothing was waiting. -/
  | idle (h : s.input = []) : Served s s
  /-- Reset. -/
  | reset (rest : List Input) (h : s.input = .reset :: rest) : Served s (resetBlock { s with input := rest })
  /-- A HostRead. -/
  | read (rest : List Input) (id : BitVec 5) (h : s.input = .read id :: rest) :
      Served s { s with input := rest, readLog := s.readLog ++ [⟨id, hostRead id s⟩] }
  /-- A HostWrite of a reserved number. -/
  | reserved (rest : List Input) (id : BitVec 5) (v : Nat) (h : s.input = .write id v :: rest) (hid : Reg.ofId id = none) :
      Served s { s with input := rest }
  /-- A HostWrite of a register other than CMD. -/
  | stored (rest : List Input) (r : Reg) (v : Nat) (h : s.input = .write r.id v :: rest) (hr : r ≠ .cmd)
      (hv : v < 2 ^ r.width) : Served s (storeReg r v { s with input := rest })
  /-- An illegal word written to CMD. -/
  | illegal (rest : List Input) (v : Nat) (e : DecodeError) (h : s.input = .write Reg.cmd.id v :: rest) (hv : v < 2 ^ 32)
      (he : decode (BitVec.ofNat 32 v) = .error e) :
      Served s { s with input := rest, cmd := BitVec.ofNat 32 v, status := statusAfterFail s.status .illegalCmd }
  /-- A command. -/
  | ran (rest : List Input) (v : Nat) (i : Instr) (t : State) (h : s.input = .write Reg.cmd.id v :: rest) (hv : v < 2 ^ 32)
      (hi : decode (BitVec.ofNat 32 v) = .ok i)
      (hx : exec i { s with input := rest, cmd := BitVec.ofNat 32 v } = .next t) : Served s t

/-- Split a step by cases on this, instead of unfolding it. -/
theorem step_served {s t : State} (h : step s = .next t) : Served s t := by
  rcases step_next_cases h with ⟨h0, rfl⟩ | ⟨a, rest, hin, hs⟩
  · exact .idle h0
  cases a with
  | reset => cases hs; exact .reset rest hin
  | read id => cases hs; exact .read rest id hin
  | write id v =>
    change hostWrite id v { s with input := rest } = .next t at hs
    cases hf : valueFits id v with
    | false => rw [hostWrite_refused _ hf] at hs; cases hs
    | true =>
      rcases hostWrite_cases { s with input := rest } hf with ⟨hid, hw⟩ | ⟨hid, hw⟩ | ⟨r, hid, hc, hw⟩
      · rw [hw] at hs; cases hs; exact .reserved rest id v hin hid
      · obtain rfl := Reg.id_of_ofId hid
        have hv : v < 2 ^ 32 := of_decide_eq_true hf
        rw [hw] at hs
        rcases runCommand_cases (BitVec.ofNat 32 v) { s with input := rest } with ⟨e, he, hr⟩ | ⟨i, hi, hr⟩
        · rw [hr] at hs; cases hs; exact .illegal rest v e hin hv he
        · rw [hr] at hs; exact .ran rest v i t hin hv hi hs
      · obtain rfl := Reg.id_of_ofId hid
        have hv : v < 2 ^ r.width := by simpa [valueFits, hid] using hf
        rw [hw] at hs; cases hs; exact .stored rest r v hin hc hv

/-- The block has no fault to raise. -/
theorem no_fault (f : Fault) : False := nomatch f

end Sys2Proof.Machine
end

