-- ==== Sys2Proof/Tests/Slice0.lean ====
section
/-! SUPPORT. The model's own tests, each of one step or one command on a small state. The expected results are those of the spec:
the words of 30_encoding.md R60 and R70 written out bit by bit, and vectors of 95_test_vectors.md by their ids. The theorems
`test_witness_...` show for each statement with hypotheses that they can be met together, at the ends of their ranges. -/

namespace Sys2Proof.Tests

open Sys2Proof Sys2Proof.Machine

/-- Does the outcome give a next state of which `p` holds? -/
def gives (o : Host.Outcome State Fault Refusal) (p : State → Bool) : Bool :=
  match o with
  | .next t => p t
  | .fault _ => false
  | .refused _ => false

/-- Does the decoder answer this command? -/
def decodesTo (w : CmdWord) (i : Instr) : Bool :=
  match decode w with
  | .ok j => decide (j = i)
  | .error _ => false

/-- Does the decoder refuse, for this reason? -/
def refusedFor (w : CmdWord) (e : DecodeError) : Bool :=
  match decode w with
  | .ok _ => false
  | .error f => decide (f = e)

/-- The buffer of the vectors of 95_test_vectors.md 2.2. -/
def ramp : Addr := 0x00112233445566778899AABBCCDDEEFF

/-- The reset state with BUF set. -/
def withBuf (v : Addr) : State := { State.reset with buf := v }

/-- The reset state with events waiting. -/
def waiting (l : List Input) : State := { State.reset with input := l }

/-- The operands of the vectors of 95_test_vectors.md 2.5. -/
def dstState (len : BitVec 8) : State :=
  { State.reset with
    pfx := 0x20010DB8000100000000000000000000, plen := len, ipv4 := 0x0A000001, qfi := 9, rf := 0, uf := 1, pduid := 1 }

/-- The operands of the vectors of 95_test_vectors.md 2.7. -/
def srcState (len : BitVec 8) (port : BitVec 16) : State :=
  { State.reset with pfx := BitVec.allOnes 128, plen := len, ipv4 := 0xC0000201, port := port }

/-! ### Well-formedness: one ill-formed term for each check -/

theorem test_wf_extract_bit : (Instr.extract 256 0).wf = false := by decide
theorem test_wf_extract_nb : (Instr.extract 0 32).wf = false := by decide
theorem test_wf_insert_bit : (Instr.insert 256 31).wf = false := by decide
theorem test_wf_insert_nb : (Instr.insert 255 32).wf = false := by decide
theorem test_wf_dstDecode : (Instr.dstDecode 256).wf = false := by decide
theorem test_wf_srcDecodeBasic : (Instr.srcDecodeBasic 256).wf = false := by decide
theorem test_wf_value_too_wide : (Input.write 0x0A 64).fits = false := by decide

/-! ### Decoding: a word of each constructor, written out from `00000000000nnnnnbbbbbbbb0000oooo` (30_encoding.md R60) -/

theorem test_decode_extract : decodesTo 0b00000000000001000000110100000001 (.extract 13 4) = true := by decide
theorem test_decode_insert : decodesTo 0b00000000000000100010100000000010 (.insert 40 2) = true := by decide
theorem test_decode_argsPack : decodesTo 0b00000000000000000000000000000011 .argsPack = true := by decide
theorem test_decode_argsUnpack : decodesTo 0b00000000000101010101010100000100 .argsUnpack = true := by decide
theorem test_decode_dstEncode : decodesTo 0b00000000000111111111111100000101 .dstEncode = true := by decide
theorem test_decode_dstDecode : decodesTo 0b00000000000111110011010000000110 (.dstDecode 52) = true := by decide
theorem test_decode_srcEncode : decodesTo 0b00000000000000000000000000000111 .srcEncode = true := by decide
theorem test_decode_srcDecodeBasic :
    decodesTo 0b00000000000000000010100000001000 (.srcDecodeBasic 40) = true := by decide
theorem test_decode_srcDecodeVendor : decodesTo 0b00000000000000000000000000001001 .srcDecodeVendor = true := by decide
theorem test_decode_opc0 : refusedFor 0 .opcodeUnassigned = true := by decide
theorem test_decode_opcA : refusedFor 0x0000000A .opcodeUnassigned = true := by decide
theorem test_decode_rsv0 : refusedFor 0x00000011 .rsv0NotZero = true := by decide
theorem test_decode_rsv1_low : refusedFor 0x00200001 .rsv1NotZero = true := by decide
theorem test_decode_rsv1_high : refusedFor 0x80000005 .rsv1NotZero = true := by decide
theorem test_table_word : decodeTableWord 32 0x00000006 = some (.dstDecode 0) := by decide

/-! ### One or two vectors of each command -/

/-- X7: the largest unaligned window. -/
theorem test_extract_unaligned :
    gives (exec (.extract 7 15) (withBuf ramp)) (fun t => t.dout = 0x089119A22AB33BC44CD55DE66EF77F00) = true := by decide
/-- X11: sum 129. -/
theorem test_extract_past_end :
    gives (exec (.extract 121 1) (withBuf ramp)) (fun t => t.status = 0x83 ∧ t.dout = 0) = true := by decide
/-- N15: an OR into bits that were not zero. -/
theorem test_insert_unaligned :
    gives (exec (.insert 12 1) { withBuf ramp with din := 0xABCDEF12999999999999999999999999 })
      (fun t => t.buf = 0x001BB233445566778899AABBCCDDEEFF) = true := by decide
/-- N16: the aligned path replaces. -/
theorem test_insert_aligned :
    gives (exec (.insert 16 1) { withBuf ramp with din := 0xABCDEF12999999999999999999999999 })
      (fun t => t.buf = 0x0011AB33445566778899AABBCCDDEEFF) = true := by decide
/-- A3. -/
theorem test_argsPack :
    gives (exec .argsPack { State.reset with qfi := 5, rf := 1, pduid := 0x12345678 })
      (fun t => t.args = 0x1612345678) = true := by decide
/-- A7. -/
theorem test_argsUnpack :
    gives (exec .argsUnpack { State.reset with args := 0xA5DEADBEEF })
      (fun t => t.qfi = 41 ∧ t.rf = 0 ∧ t.uf = 1 ∧ t.pduid = 0xDEADBEEF) = true := by decide
/-- D2: the unaligned path. -/
theorem test_dstEncode : gives (exec .dstEncode (dstState 52)) (fun t => t.buf = 0x20010DB8000100A00000125000000010) = true := by
  decide
/-- D8: TOO_SHORT_TO_MARSHAL, not PREFIX_LENGTH. -/
theorem test_dstEncode_128 : gives (exec .dstEncode (dstState 128)) (fun t => t.status = 0x82 ∧ t.buf = 0) = true := by decide
/-- Q2: a length other than the encoder's. -/
theorem test_dstDecode :
    gives (exec (.dstDecode 48) (withBuf 0x20010DB8000100A00000125000000010))
      (fun t => t.plen = 48 ∧ t.ipv4 = 0x00A00000 ∧ t.qfi = 4 ∧ t.rf = 1 ∧ t.uf = 0 ∧ t.pduid = 0x50000000) = true := by decide
/-- Q5. -/
theorem test_dstDecode_57 :
    gives (exec (.dstDecode 57) (withBuf 0x20010DB8000100A00000125000000010)) (fun t => t.status = 0x83 ∧ t.pfx = 0) = true := by
  decide
/-- S3: at length 73 the port's last bit is bit 7 of byte 15. -/
theorem test_srcEncode_73 :
    gives (exec .srcEncode (srcState 73 0x1235)) (fun t => t.buf = 0xFFFFFFFFFFFFFFFFFFE0000100891AC9) = true := by decide
/-- S5: at length 74 the length field replaces it. -/
theorem test_srcEncode_74 :
    gives (exec .srcEncode (srcState 74 0xFFFF)) (fun t => t.buf = 0xFFFFFFFFFFFFFFFFFFF00000807FFFCA) = true := by decide
/-- B3. -/
theorem test_srcDecodeBasic :
    gives (exec (.srcDecodeBasic 96) { withBuf 0x20010DB8ABC000020130390000000028 with port := 0x1111 })
      (fun t => t.plen = 96 ∧ t.ipv4 = 0x28 ∧ t.port = 0 ∧ t.pfx = 0x20010DB8ABC000020130390000000000) = true := by decide
/-- B5: OUT_OF_RANGE, not PREFIX_LENGTH. -/
theorem test_srcDecodeBasic_129 :
    gives (exec (.srcDecodeBasic 129) (withBuf ramp)) (fun t => t.status = 0x83) = true := by decide
/-- V3. -/
theorem test_srcDecodeVendor :
    gives (exec .srcDecodeVendor (withBuf 0xFFFFFFFFFFFFFFFFFFE0000100891AC9))
      (fun t => t.plen = 73 ∧ t.ipv4 = 0xC0000201 ∧ t.port = 0x1235) = true := by decide
/-- V8: bit 7 of byte 15 is no part of the length. -/
theorem test_srcDecodeVendor_bit7 :
    gives (exec .srcDecodeVendor (withBuf 0x80)) (fun t => t.status = 0x84) = true := by decide

/-! ### The port (95_test_vectors.md 2.10) -/

theorem test_status_write_7F :
    gives (step { waiting [.write 0x01 0x7F] with status := 0x83 }) (fun t => t.status = 0x83) = true := by decide
theorem test_status_write_FF :
    gives (step { waiting [.write 0x01 0xFF] with status := 0x85 }) (fun t => t.status = 0x05) = true := by decide
theorem test_sticky_stays :
    gives (step { waiting [.write 0x00 0x00010001] with status := 0x83 }) (fun t => t.status = 0x80 ∧ t.cmd = 0x00010001) = true := by
  decide
theorem test_illegal_word :
    gives (step (waiting [.write 0x00 0x0000000C])) (fun t => t.status = 0x85 ∧ t.cmd = 0x0000000C) = true := by decide
theorem test_read_reserved :
    gives (step (waiting [.read 0x1F])) (fun t => t.readLog = [⟨0x1F, 0⟩]) = true := by decide
theorem test_fetch_word : gives (step (State.reset.withFetchWord 32 0x00000005)) (fun t => t.cmd = 5 ∧ t.status = 0) = true := by
  decide

/-! ### Text of host programs (30_encoding.md R68) -/

theorem test_parse_wr :
    parseLine "wr PLEN, 0x30 ; a comment".toList = some (.wr .plen (.number 48)) := by decide
theorem test_parse_bytes :
    (parseLine "wr PFX, [20 01 0D B8 00 00 00 00 00 00 00 00 00 00 00 00]".toList).bind assemble =
      some (.write 0x05 0x20010DB8000000000000000000000000) := by decide
theorem test_parse_refused : (parseLine "extract bit=256, nb=4".toList).bind assemble = none := by decide

/-! ### Witnesses -/

theorem test_witness_DecodeOfEncodeIsIdentity : (Instr.extract 255 31).wf = true := by decide
theorem test_witness_EncodeOfDecodeKeepsUsedFields : decodesTo 0x001FFF05 .dstEncode = true := by decide
theorem test_witness_IgnoredFieldsHaveNoEffect :
    decodesTo 0x00003406 (.dstDecode 52) = true ∧
      0x001F3406#32 &&& Instr.usedMask (.dstDecode 52) = 0x00003406#32 &&& Instr.usedMask (.dstDecode 52) := by decide
theorem test_witness_IllegalWordFails :
    refusedFor 0x80000005 .rsv1NotZero = true ∧ refusedFor 0x0000000F .opcodeUnassigned = true ∧
      refusedFor 0x00000081 .rsv0NotZero = true := by decide
theorem test_witness_StepRunsTheDecodedCommand :
    (waiting [.write 0x00 5, .reset]).input = .write 0x00 (5#32).toNat :: [.reset] ∧ decodesTo 5 .dstEncode = true := by decide
theorem test_witness_CommandLinesAssemble :
    assemble (.command (.extract 255 31)) = some (.write 0x00 0x001FFF01) ∧ assemble (.cmd 0xFFFFFFFF) = some (.write 0x00 0xFFFFFFFF) := by
  decide
theorem test_witness_AddressBitOrder : (127 < 128) ∧ (1#128).getMsbD 127 = true ∧ (byte 1 15).getLsbD 0 = true := by decide
theorem test_witness_ExtClosedForm : 128 + 8 * 0 ≤ 128 ∧ 120 + 8 * 1 ≤ 128 ∧ 0 + 8 * 16 ≤ 128 := by decide
theorem test_witness_AppClosedForm :
    ceilDiv8 120 + [0xAB#8].length ≤ 16 ∧ ceilDiv8 119 + [0xAB#8].length ≤ 16 ∧ ceilDiv8 128 + ([] : List Byte).length ≤ 16 := by
  decide
theorem test_witness_WindowBoundsAgree : 128 < 121 + 8 * [0xAB#8].length ∧ 128 < 129 + 8 * ([] : List Byte).length := by decide
theorem test_witness_BitWindowRoundTrip : 119 + 8 * 1 ≤ 128 ∧ 128 + 8 * 0 ≤ 128 := by decide
theorem test_witness_ExtractWritesTheWindow :
    0 + 8 * 16 ≤ 128 ∧ gives (exec (.extract 0 16) (withBuf ramp)) (fun t => t.dout = ramp) = true := by decide
theorem test_witness_DoutHoldsOnlyExtractedBytes :
    (7 + 8 * 15 ≤ 128 ∧ 14 < 15 ∧ 7 < 8 ∧ 15 ≤ 15 ∧ 15 < 16) ∧
      gives (takeInput (.write 0x00 0x00017801) (withBuf ramp)) (fun t => t.dout ≠ 0) = true ∧
      gives (takeInput .reset { State.reset with dout := 1 }) (fun t => t.dout ≠ 1) = true ∧
      gives (hostWrite 0x04 (2 ^ 128 - 1) State.reset) (fun t => t.dout = 0) = true := by decide
theorem test_witness_InsertWritesTheWindow :
    120 + 8 * 1 ≤ 128 ∧ 120 % 8 = 0 ∧ 119 + 8 * 1 ≤ 128 ∧ 119 % 8 ≠ 0 ∧
      gives (exec (.insert 119 1) { State.reset with din := BitVec.allOnes 128 }) (fun t => t.buf = 0x1FE) = true := by decide
theorem test_witness_InsertBitByBit :
    (3 + 8 * 2 ≤ 128 ∧ 3 % 8 ≠ 0 ∧ 2 < 3 ∧ 3 + 8 * 2 ≤ 19 ∧ 15 < 8 * 2) ∧ (8 + 8 * 2 ≤ 128 ∧ 8 % 8 = 0) ∧
      ∀ m : Fin 16, State.reset.buf.getMsbD (3 + m) = false := by decide
theorem test_witness_DinIsTheHostsPayload :
    (120 + 8 * 1 ≤ 128 ∧ ∀ m : Fin 8, State.reset.buf.getMsbD (120 + m) = false) ∧
      (byte 0xFF000000000000000000000000000000 0 = byte 0xFF0000000000000000000000000000AA 0) ∧
      gives (takeInput (.write 0x03 1) State.reset) (fun t => t.din ≠ 0) = true := by decide
theorem test_witness_ExtractAfterInsert :
    gives (exec (.insert 5 1) { State.reset with din := BitVec.allOnes 128 })
      (fun t => statusCode t.status = 0 ∧ t.buf ≠ 0) = true ∧ ∀ m : Fin 128, State.reset.buf.getMsbD m = false := by decide
theorem test_witness_WindowOutOfBoundsFails : 128 < 121 + 8 * 1 ∧ 128 < 129 + 8 * 0 ∧ 128 < 0 + 8 * 17 := by decide
theorem test_witness_ArgsCodecIsABijection : gives (exec .argsUnpack State.reset) (fun _ => true) = true := by decide
theorem test_witness_DstEncodeWritesBuf : (dstState 56).plen.toNat ≤ 56 ∧ (dstState 0).plen.toNat ≤ 56 := by decide
theorem test_witness_DstLayout : (dstState 55).plen.toNat + 32 + 40 ≤ 128 ∧ (dstState 55).plen.toNat + 72 ≤ 127 := by decide
theorem test_witness_DstDecodeWritesFields :
    gives (exec (.dstDecode 56) (withBuf 0x20010DB8000100A00000125000000010)) (fun t => t.ipv4 = 0xA0000012) = true := by decide
theorem test_witness_DestinationRoundTrip :
    (dstState 56).plen.toNat ≤ 56 ∧ (dstState 0).plen.toNat ≤ 56 ∧ (dstState 56).plen.toNat * 2 ^ 8 + 0x6 = 0x3806 := by decide
theorem test_witness_DstEncodeIsTwoInserts : (dstState 52).plen.toNat ≤ 56 := by decide
theorem test_witness_SrcEncodeWritesBuf : (srcState 80 0xFFFF).plen.toNat ≤ 80 ∧ (srcState 0 0x1234).plen.toNat ≤ 80 := by decide
theorem test_witness_SrcTrailerHoldsTheLength :
    gives (exec .srcEncode (srcState 80 0xFFFF)) (fun t => statusCode t.status = 0 ∧ t.buf.toNat % 256 = 0xD0) = true ∧
      gives (exec .srcEncode (srcState 72 0xFFFF)) (fun t => statusCode t.status = 0 ∧ t.buf.toNat % 256 = 0x48) = true := by decide
theorem test_witness_EncodersRejectLengths :
    129 ≤ (dstState 129).plen.toNat ∧ (57 ≤ (dstState 57).plen.toNat ∧ (dstState 57).plen.toNat ≤ 128) ∧
      (81 ≤ (srcState 81 0).plen.toNat ∧ (srcState 81 0).plen.toNat ≤ 128) ∧ (srcState 128 0).plen.toNat ≤ 128 := by decide
theorem test_witness_SrcDecodeBasicWritesFields :
    (1 ≤ 1 ∧ 1 ≤ 96 ∧ 96 ≤ 96) ∧ gives (exec (.srcDecodeBasic 1) (withBuf ramp)) (fun t => t.plen = 1) = true := by decide
theorem test_witness_SrcDecodeVendorWritesFields :
    (1 ≤ (withBuf 0x81).buf.toNat % 128 ∧ (withBuf 0x81).buf.toNat % 128 ≤ 73) ∧ (withBuf 0x49).buf.toNat % 128 = 73 := by decide
theorem test_witness_DecodersRejectLengths :
    (57 ≤ 57 ∧ 97 ≤ 97) ∧ (withBuf 0x80).buf.toNat % 128 = 0 ∧ 74 ≤ (withBuf 0x4A).buf.toNat % 128 ∧
      gives (exec (.srcDecodeBasic 0) (withBuf ramp)) (fun t => t.status = 0x84) = true := by decide
theorem test_witness_SourceRoundTrips :
    (1 ≤ (srcState 73 0x1235).plen.toNat ∧ (srcState 73 0x1235).plen.toNat ≤ 73 ∧ (srcState 80 0).plen.toNat ≤ 80) ∧
      (1 ≤ (srcState 1 0).plen.toNat ∧ (srcState 80 0).plen.toNat * 2 ^ 8 + 0x8 = 0x5008) := by decide
theorem test_witness_DecodersIgnoreUnspecifiedBits :
    (∀ m : Fin 120, (0xFF#128).getMsbD m = (withBuf 0).buf.getMsbD m) ∧
      (∀ m : Fin 49, (0x8001#128).getMsbD m = (withBuf 1).buf.getMsbD m) ∧
      (withBuf 1).buf.toNat % 128 ≤ 73 ∧ (0x8001#128).toNat % 128 = (withBuf 1).buf.toNat % 128 := by decide
theorem test_witness_EncodersMaskThePrefix :
    ∀ m : Fin 52, (0x20010DB8000105FFFF00000000000000#128).getMsbD m =
      ({ dstState 52 with pfx := 0x20010DB8000100000000000000000000 } : State).pfx.getMsbD m := by decide
theorem test_witness_DecodedPrefixIsCanonical :
    gives (exec (.dstDecode 56) (withBuf ramp)) (fun t => statusCode t.status = 0) = true ∧
      gives (exec (.srcDecodeBasic 96) (withBuf ramp)) (fun t => statusCode t.status = 0) = true ∧
      gives (exec .srcDecodeVendor (withBuf 0x49)) (fun t => statusCode t.status = 0) = true := by decide
theorem test_witness_CommandsFollowTheErrorTable :
    errorTable .srcDecodeVendor State.reset = some .prefixLength ∧ errorTable .dstEncode State.reset = none ∧
      refusedFor 0x00000010 .rsv0NotZero = true := by decide
theorem test_witness_FailureWritesOnlyStatus :
    gives (exec .dstEncode (dstState 57)) (fun t => statusCode t.status ≠ 0) = true := by decide
theorem test_witness_SuccessKeepsSticky :
    gives (exec .argsPack { State.reset with status := 0x83 }) (fun t => statusCode t.status = 0 ∧ statusSticky t.status) = true := by
  decide
theorem test_witness_CommandsKeepTheWriteMatrix :
    Reg.pfx ≠ .status ∧ Reg.pfx ∉ resultRegs .dstEncode ∧ gives (exec .dstEncode (dstState 52)) (fun t => t.buf ≠ 0) = true := by
  decide
theorem test_witness_CommandsAreIdempotent :
    gives (exec (.insert 8 1) { withBuf ramp with din := 1 }) (fun t => t.buf ≠ ramp) = true := by decide
theorem test_witness_CommandsReadOnlyTheirOperands :
    ∀ r ∈ operandRegs (.dstDecode 48), readReg r (withBuf ramp) = readReg r { withBuf ramp with pfx := 1, port := 7 } := by decide
theorem test_witness_HostReadHasNoSideEffect : (waiting [.read 0x0D]).input = .read 0x0D :: [] := by decide
theorem test_witness_HostWriteSetsItsRegister :
    gives (hostWrite 0x02 (2 ^ 128 - 1) State.reset) (fun t => t.buf = BitVec.allOnes 128) = true ∧
      gives (hostWrite 0x03 (2 ^ 128 - 1) State.reset) (fun t => t.din = BitVec.allOnes 128) = true ∧
      gives (hostWrite 0x05 (2 ^ 128 - 1) State.reset) (fun t => t.pfx = BitVec.allOnes 128) = true ∧
      gives (hostWrite 0x06 (255) State.reset) (fun t => t.plen = 255) = true ∧
      gives (hostWrite 0x07 (2 ^ 32 - 1) State.reset) (fun t => t.ipv4 = BitVec.allOnes 32) = true ∧
      gives (hostWrite 0x08 (2 ^ 16 - 1) State.reset) (fun t => t.port = BitVec.allOnes 16) = true ∧
      gives (hostWrite 0x09 (2 ^ 40 - 1) State.reset) (fun t => t.args = BitVec.allOnes 40) = true ∧
      gives (hostWrite 0x0A (63) State.reset) (fun t => t.qfi = 63) = true ∧
      gives (hostWrite 0x0B (1) State.reset) (fun t => t.rf = 1) = true ∧
      gives (hostWrite 0x0C (1) State.reset) (fun t => t.uf = 1) = true ∧
      gives (hostWrite 0x0D (2 ^ 32 - 1) State.reset) (fun t => t.pduid = BitVec.allOnes 32) = true := by decide
theorem test_witness_StatusIsWriteOneToClear : 0x7F < 2 ^ 8 ∧ ¬ 2 ^ 7 ≤ 0x7F ∧ 0x80 < 2 ^ 8 ∧ 2 ^ 7 ≤ 0x80 := by decide
theorem test_witness_WriteThenReadReturnsTheValue :
    (Reg.cmd ≠ .status ∧ Reg.cmd ≠ .dout ∧ 2 ^ 32 - 1 < 2 ^ Reg.width .cmd) ∧ (Reg.uf ≠ .status ∧ Reg.uf ≠ .dout ∧ 1 < 2 ^ Reg.width .uf) := by
  decide
theorem test_witness_ReservedNumbersHoldNothing : 0x0E ≤ (0x0E#5).toNat ∧ 0x0E ≤ (0x1F#5).toNat := by decide
theorem test_witness_OnlyTooWideWritesAreRefused :
    (match step (waiting [.write 0x0B 2]) with
      | .refused r => decide (r = .valueWiderThanRegister)
      | .next _ => false
      | .fault _ => false) = true ∧ 2 ^ Reg.width .rf ≤ 2 := by decide
theorem test_witness_StepServesTheOldestAccess :
    gives (step State.reset) (fun t => t = State.reset) = true ∧
      gives (step (waiting [.read 0x01, .reset])) (fun t => t.input = [.reset]) = true := by decide
theorem test_witness_CommandsAfterReset : 128 + 8 * 0 ≤ 128 ∧ 0 + 8 * 16 ≤ 128 := by decide
theorem test_witness_StepKeepsStatusLegal :
    StatusLegal { State.reset with status := 0x85 } ∧
      gives (step { waiting [.write 0x00 0x00000003] with status := 0x85 }) (fun t => t.status = 0x80) = true := by
  unfold StatusLegal; decide
theorem test_witness_SafeStatesNeverStop : SafeState (waiting [.write 0x00 0x0000000F, .write 0x0B 1, .read 0x1F, .reset]) := by
  unfold SafeState StatusLegal InputsFit; decide
theorem test_witness_StickyClearedOnlyByHostOrReset :
    gives (step { waiting [.write 0x01 0x80] with status := 0x84 }) (fun t => statusSticky t.status = false) = true ∧
      gives (step { waiting [.reset] with status := 0x84 }) (fun t => statusSticky t.status = false) = true := by decide
theorem test_witness_BufWrittenOnlyByEncodersAndHost :
    gives (takeInput (.write 0x00 5) (dstState 52)) (fun t => t.buf ≠ 0) = true ∧
      gives (takeInput (.write 0x02 1) State.reset) (fun t => t.buf ≠ 0) = true ∧
      gives (takeInput .reset (withBuf ramp)) (fun t => t.buf ≠ ramp) = true := by decide

end Sys2Proof.Tests
end

/-! # The statements about the state (10_state.md)

Each proof goes through the laws of the model: what one step can do (`Served`), how a command ends (`exec_cases`), and the
meaning of each command where it is in range. -/

/-! ### One register: what a read gives after a write -/

namespace Sys2Proof.Machine

/-- A register the host writes takes the value; STATUS and DOUT do not (20_memory.md R46). -/
theorem readReg_storeReg_same {r : Reg} {v : Nat} (hs : r ≠ .status) (hd : r ≠ .dout) (hv : v < 2 ^ r.width) (s : State) :
    readReg r (storeReg r v s) = v := by
  cases r with
  | status => exact absurd rfl hs
  | dout => exact absurd rfl hd
  | _ => exact Nat.mod_eq_of_lt hv

/-- Each register is a place of its own: CMD, STATUS and the lists of the outside world are read by no other. -/
theorem readReg_update {r : Reg} (hc : r ≠ .cmd) (hs : r ≠ .status) (s : State) (w : CmdWord) (st : BitVec 8) (l : List Input)
    (g : List Answer) : readReg r { s with cmd := w, status := st, input := l, readLog := g } = readReg r s := by
  cases r with
  | cmd => exact absurd rfl hc
  | status => exact absurd rfl hs
  | _ => rfl

theorem storeReg_status_of_ne {r : Reg} (h : r ≠ .status) (v : Nat) (s : State) : (storeReg r v s).status = s.status := by
  cases r with
  | status => exact absurd rfl h
  | _ => rfl

theorem hostRead_id (r : Reg) (s : State) : hostRead r.id s = readReg r s := by
  simp [hostRead, Reg.ofId_id]

/-- The reserved numbers name no register (10_state.md R33). -/
theorem Reg.ofId_reserved : ∀ id : BitVec 5, 0x0E ≤ id.toNat → Reg.ofId id = none := by decide

/-- STATUS after a host write, by the written number: bit 7 is set from 128 on. -/
theorem statusAfterWrite_ofNat {v : Nat} (hv : v < 2 ^ 8) (st : BitVec 8) :
    statusAfterWrite st (BitVec.ofNat 8 v) = if 2 ^ 7 ≤ v then st &&& 0x7F#8 else st := by
  have bit7 : (BitVec.ofNat 8 v).getLsbD 7 = decide (2 ^ 7 ≤ v) := by
    have all : ∀ x : BitVec 8, x.getLsbD 7 = decide (2 ^ 7 ≤ x.toNat) := by decide
    rw [all, BitVec.toNat_ofNat, Nat.mod_eq_of_lt hv]
  simp only [statusAfterWrite, bit7, decide_eq_true_eq, BitVec.ofNat_eq_ofNat]

/-- Settles O50: no register has a reserved number, so neither access finds one. -/
theorem reservedNumbersHoldNothing : Obligations.ReservedNumbersHoldNothing := by
  intro s id hid
  have hnone := Reg.ofId_reserved id hid
  exact ⟨by simp [hostRead, hnone], fun v => by simp [hostWrite, valueFits, writeReg, hnone]⟩

/-- Settles O48: a write of STATUS is stored like any other, and bit 7 of a byte is set from 128 on. -/
theorem statusIsWriteOneToClear : Obligations.StatusIsWriteOneToClear := by
  intro s v hv
  have hstored : hostWrite 0x01 v s = .next (storeReg .status v s) := takeInput_stored s (r := .status) (by decide) hv
  rw [hstored, ← statusAfterWrite_ofNat hv]
  rfl

/-! ### How a command ends -/

/-- CODE tells success from failure: a command that leaves CODE 0 met none of the error conditions. -/
theorem errorTable_eq_none_of_code {i : Instr} {s t : State} (h : exec i s = .next t) (hcode : statusCode t.status = 0) :
    errorTable i s = none := by
  rcases exec_next_cases h with ⟨k, _, rfl⟩ | ⟨hnone, _, _⟩
  · exact absurd ((statusCode_afterFail s.status k).symm.trans hcode) k.code_ne_ok
  · exact hnone

/-- The error table reads neither CMD nor what is waiting. -/
theorem errorTable_update (i : Instr) (s : State) (w : CmdWord) (l : List Input) :
    errorTable i { s with input := l, cmd := w } = errorTable i s := by
  cases i <;> rfl

theorem errorTable_extract_eq_none {b n : Nat} {s : State} : errorTable (.extract b n) s = none ↔ b + 8 * n ≤ 128 := by
  simp [errorTable]

theorem errorTable_dstDecode_eq_none {b : Nat} {s : State} : errorTable (.dstDecode b) s = none ↔ b ≤ 56 := by
  simp [errorTable]; omega

theorem errorTable_srcDecodeBasic_eq_none {b : Nat} {s : State} :
    errorTable (.srcDecodeBasic b) s = none ↔ 1 ≤ b ∧ b ≤ 96 := by
  unfold errorTable; grind

theorem errorTable_srcDecodeVendor_eq_none {s : State} :
    errorTable .srcDecodeVendor s = none ↔ 1 ≤ vendorLen s.buf ∧ vendorLen s.buf ≤ 73 := by
  rw [vendorLen_eq]; unfold errorTable; grind

/-- A command's frame: a register that is no result register, STATUS apart, reads as before. -/
theorem readReg_of_exec {i : Instr} {s t : State} {r : Reg} (h : exec i s = .next t) (hs : r ≠ .status)
    (hr : r ∉ resultRegs i) : readReg r t = readReg r s := by
  rcases exec_next_cases h with ⟨k, _, rfl⟩ | ⟨_, _, hframe⟩
  · cases r with
    | status => exact absurd rfl hs
    | _ => rfl
  · exact hframe r hs hr

theorem cmd_notMem_resultRegs (i : Instr) : .cmd ∉ resultRegs i := by cases i <;> simp [resultRegs]

theorem din_notMem_resultRegs (i : Instr) : .din ∉ resultRegs i := by cases i <;> simp [resultRegs]

/-- Only EXTRACT has DOUT in its row of the write matrix (10_state.md R25, R32). -/
theorem exists_extract_of_dout_mem {i : Instr} (h : .dout ∈ resultRegs i) : ∃ b n, i = .extract b n := by
  cases i with
  | extract b n => exact ⟨b, n, rfl⟩
  | _ => simp [resultRegs] at h

/-- Only INSERT and the two encoders have BUF in their rows of the write matrix (10_state.md R23, R32). -/
theorem encoder_of_buf_mem {i : Instr} (h : .buf ∈ resultRegs i) :
    (∃ e n, i = .insert e n) ∨ i = .dstEncode ∨ i = .srcEncode := by
  cases i with
  | insert e n => exact .inl ⟨e, n, rfl⟩
  | dstEncode => exact .inr (.inl rfl)
  | srcEncode => exact .inr (.inr rfl)
  | _ => simp [resultRegs] at h

/-- Settles O43, from the two ends a command can have. -/
theorem commandsKeepTheWriteMatrix : Obligations.CommandsKeepTheWriteMatrix := by
  intro i s t h
  obtain ⟨u, hu, hin, hlog⟩ := exec_next i s
  obtain rfl : u = t := by rw [hu] at h; cases h; rfl
  exact ⟨fun r hs hr => readReg_of_exec h hs hr, hin, hlog⟩

/-- A word written to CMD stays there, whether it is illegal, fails or succeeds (30_encoding.md R66). -/
theorem runCommand_keeps_word (w : CmdWord) (s : State) : ∃ t, runCommand w s = .next t ∧ readReg .cmd t = w.toNat := by
  rcases runCommand_cases w s with ⟨e, _, hrun⟩ | ⟨i, _, hrun⟩
  · exact ⟨_, hrun, rfl⟩
  · obtain ⟨t, ht, _⟩ := exec_next i { s with cmd := w }
    exact ⟨t, hrun.trans ht, readReg_of_exec ht (by decide) (cmd_notMem_resultRegs i)⟩

/-- Settles O49: CMD keeps its word through the command it runs, and every other register is simply stored. -/
theorem writeThenReadReturnsTheValue : Obligations.WriteThenReadReturnsTheValue := by
  intro s r v hs hd hv
  simp only [hostRead_id]
  by_cases hc : r = .cmd
  · subst hc
    obtain ⟨t, ht, hread⟩ := runCommand_keeps_word (BitVec.ofNat 32 v) s
    have hword : (BitVec.ofNat 32 v).toNat = v := Nat.mod_eq_of_lt hv
    have hrun : hostWrite Reg.cmd.id v s = runCommand (BitVec.ofNat 32 v) s := by
      simpa [takeInput, Reg.id, hword] using takeInput_cmd (BitVec.ofNat 32 v) s
    exact ⟨t, hrun.trans ht, hread.trans hword⟩
  · exact ⟨_, takeInput_stored s hc hv, readReg_storeReg_same hs hd hv s⟩

/-! ### STATUS over one step -/

/-- What one step can do to STATUS, `input` being what was waiting. -/
inductive StatusStep (input : List Input) (st : BitVec 8) : BitVec 8 → Prop where
  | kept : StatusStep input st st
  | reset (rest : List Input) (h : input = .reset :: rest) : StatusStep input st 0
  | failed (k : ErrKind) (hk : k ≠ .tooShortToParse) : StatusStep input st (statusAfterFail st k)
  | committed : StatusStep input st (statusAfterCommit st)
  | written (rest : List Input) (v : Nat) (h : input = .write 0x01 v :: rest) (hv : v < 2 ^ 8) :
      StatusStep input st (statusAfterWrite st (BitVec.ofNat 8 v))

/-- A command fails with a kind that can occur, or commits. -/
theorem exec_statusStep {i : Instr} {s t : State} (input : List Input) (h : exec i s = .next t) :
    StatusStep input s.status t.status := by
  rcases exec_next_cases h with ⟨k, hk, rfl⟩ | ⟨_, hcommit, _⟩
  · exact .failed k (errorTable_kinds hk).1
  · rw [hcommit]; exact .committed

theorem step_statusStep {s t : State} (h : step s = .next t) : StatusStep s.input s.status t.status := by
  cases step_served h with
  | idle _ => exact .kept
  | reset rest hin => exact .reset rest hin
  | read _ _ _ => exact .kept
  | reserved _ _ _ _ _ => exact .kept
  | stored rest r v hin _ hv =>
    by_cases hr : r = .status
    · subst hr; exact .written rest v hin hv
    · rw [storeReg_status_of_ne hr]; exact .kept
  | illegal _ _ _ _ _ _ => exact .failed .illegalCmd (by decide)
  | ran rest v _ _ _ _ _ hx => exact exec_statusStep (s := { s with input := rest, cmd := BitVec.ofNat 32 v }) s.input hx

/-- Every kind but TOO_SHORT_TO_PARSE has a code that is produced (60_exceptions.md R201, R202). -/
theorem ErrKind.code_mem_producedCodes {k : ErrKind} (hk : k ≠ .tooShortToParse) : k.code ∈ producedCodes := by
  cases k with
  | tooShortToParse => exact absurd rfl hk
  | _ => decide

/-- Settles O55: no case of `StatusStep` sets a reserved bit, and each keeps CODE or takes a produced one. -/
theorem stepKeepsStatusLegal : Obligations.StepKeepsStatusLegal := by
  rintro s t ⟨hres, hcode⟩ h
  unfold StatusLegal
  have hst := step_statusStep h
  generalize t.status = st at hst
  cases hst with
  | kept => exact ⟨hres, hcode⟩
  | reset => decide
  | failed k hk => simpa [hres] using ErrKind.code_mem_producedCodes hk
  | committed => simp [hres, codeOk, producedCodes]
  | written => simpa [hres] using hcode

/-- Settles O58: a failure sets STICKY, a success keeps it, and a host write clears it only with bit 7. -/
theorem stickyClearedOnlyByHostOrReset : Obligations.StickyClearedOnlyByHostOrReset := by
  intro s t h hset hclear
  have hst := step_statusStep h
  generalize t.status = st at hst hclear
  cases hst with
  | kept => simp [hset] at hclear
  | reset rest hin => exact ⟨rest, .inl hin⟩
  | failed k _ => simp at hclear
  | committed => simp [hset] at hclear
  | written rest v hin hv =>
    refine ⟨rest, .inr ⟨v, hin, ?_⟩⟩
    by_contra hlow
    rw [statusAfterWrite_ofNat hv, if_neg hlow, hset] at hclear
    cases hclear

/-! ### Who writes a register -/

/-- An event at the ports is a step with that event waiting first. -/
theorem takeInput_served {a : Input} {s t : State} (h : takeInput a s = .next t) :
    Served { s with input := a :: s.input } t :=
  step_served ((step_cons rfl).trans h)

/-- Who changes a register, CMD and STATUS apart: reset, a host write of that register, or a successful command with the register in
its row of the write matrix (10_state.md R32). -/
theorem takeInput_writers {a : Input} {s t : State} {r : Reg} (hc : r ≠ .cmd) (hs : r ≠ .status)
    (h : takeInput a s = .next t) (hne : readReg r t ≠ readReg r s) :
    a = .reset ∨ (r ≠ .dout ∧ ∃ v, a = .write r.id v) ∨
      ∃ v i, a = .write 0x00 v ∧ decode (BitVec.ofNat 32 v) = .ok i ∧ statusCode t.status = 0 ∧
        errorTable i s = none ∧ r ∈ resultRegs i := by
  cases takeInput_served h with
  | idle hin => cases hin
  | reset rest hin => cases hin; exact .inl rfl
  | read rest id hin => exact absurd (readReg_update hc hs s ..) hne
  | reserved rest id v hin _ => exact absurd (readReg_update hc hs s ..) hne
  | stored rest x v hin _ _ =>
    cases hin
    by_cases hx : r = x
    · subst hx
      refine .inr (.inl ⟨?_, v, rfl⟩)
      rintro rfl
      exact hne rfl
    · exact absurd ((readReg_storeReg_of_ne hx v _).trans (readReg_update hc hs s ..)) hne
  | illegal rest v e hin _ _ => exact absurd (readReg_update hc hs s ..) hne
  | ran rest v i t hin _ hi hx =>
    cases hin
    refine .inr (.inr ⟨v, i, rfl, hi, ?_⟩)
    rcases exec_next_cases hx with ⟨k, _, rfl⟩ | ⟨hnone, hcommit, hframe⟩
    · exact absurd (readReg_update hc hs s ..) hne
    · refine ⟨by rw [hcommit]; exact statusCode_afterCommit _, (errorTable_update ..).symm.trans hnone, ?_⟩
      by_contra hr
      exact hne ((hframe r hs hr).trans (readReg_update hc hs s ..))

/-- Settles O59: of BUF's writers, the commands are those with BUF in their row of the write matrix. -/
theorem bufWrittenOnlyByEncodersAndHost : Obligations.BufWrittenOnlyByEncodersAndHost := by
  intro a s t h hne
  have hread : readReg .buf t ≠ readReg .buf s := fun he => hne (BitVec.eq_of_toNat_eq he)
  rcases takeInput_writers (by decide) (by decide) h hread with ha | ⟨_, v, ha⟩ | ⟨v, i, ha, hi, hcode, _, hmem⟩
  · exact .inl ha
  · exact .inr (.inl ⟨v, ha⟩)
  · exact .inr (.inr ⟨v, i, ha, hi, hcode, encoder_of_buf_mem hmem⟩)

/-! ### DOUT and DIN -/

/-- Address bit `8i + j` of EXTRACT's result: the window's bit inside it, 0 after it (40_bitwindow.md R100). -/
theorem justified_byte_getMsbD (buf : Addr) {b n i j : Nat} (h : b + 8 * n ≤ 128) (hi : i < 16) (hj : j < 8) :
    (byte (mask128 (buf <<< b) (8 * n)) i).getMsbD j = (buf.getMsbD (b + 8 * i + j) && decide (i < n)) := by
  rw [byte_getMsbD _ hi hj, mask128_getMsbD _ (by omega), BitVec.getMsbD_shiftLeft,
    show 8 * i + j + b = b + 8 * i + j by omega, decide_eq_decide.mpr (show 8 * i + j < 8 * n ↔ i < n by omega)]

/-- Settles O16: DOUT takes the justified window, and EXTRACT alone has DOUT in its row of the write matrix. -/
theorem doutHoldsOnlyExtractedBytes : Obligations.DoutHoldsOnlyExtractedBytes := by
  refine ⟨fun b n s hfit => ?_, fun a s t h hne => ?_, fun s v hv => takeInput_stored s (r := .dout) (by decide) hv⟩
  · have inside : ∀ i j, i < n → j < 8 →
        (byte (mask128 (s.buf <<< b) (8 * n)) i).getMsbD j = s.buf.getMsbD (b + 8 * i + j) := fun i j hi hj => by
      rw [justified_byte_getMsbD _ hfit (by omega) hj, decide_eq_true hi, Bool.and_true]
    refine ⟨_, _, execExtract_ok s hfit, ext_ok s.buf hfit, fun i hi => ?_, by simp, inside, fun i hn hi => ?_⟩
    · have hin : i < n := by simpa using hi
      refine Byte.ext_msb fun j hj => ?_
      rw [List.getElem_map, List.getElem_range, extByte_getMsbD _ (by omega) hj]
      exact inside i j hin hj
    · refine Byte.ext_msb fun j hj => (justified_byte_getMsbD _ hfit hi hj).trans ?_
      simp [show ¬ i < n by omega]
  · have hread : readReg .dout t ≠ readReg .dout s := fun he => hne (BitVec.eq_of_toNat_eq he)
    rcases takeInput_writers (by decide) (by decide) h hread with ha | ⟨hdout, _⟩ | ⟨v, i, ha, hi, _, hnone, hmem⟩
    · exact .inl ha
    · exact absurd rfl hdout
    · obtain ⟨b, n, rfl⟩ := exists_extract_of_dout_mem hmem
      exact .inr ⟨v, b, n, ha, hi, errorTable_extract_eq_none.mp hnone⟩

/-- INSERT reads of DIN the payload only: with the other bytes changed it ends the same (10_state.md R24). -/
theorem execInsert_din_update (e n : Nat) (s : State) {d : Addr} (hd : ∀ i, i < n → byte d i = byte s.din i) :
    ∃ t, execInsert e n s = .next t ∧ execInsert e n { s with din := d } = .next { t with din := d } := by
  have hpayload : payload { s with din := d } n = payload s n :=
    List.map_congr_left fun i hi => hd i (List.mem_range.mp hi)
  simp only [execInsert, hpayload]
  split
  · exact ⟨_, rfl, rfl⟩
  · cases app s.buf e (payload s n) with
    | error k => exact ⟨_, rfl, rfl⟩
    | ok b => exact ⟨_, rfl, rfl⟩

/-- Settles O19: INSERT's window over zeros is the payload, and no command has DIN in its row of the write matrix. -/
theorem dinIsTheHostsPayload : Obligations.DinIsTheHostsPayload := by
  refine ⟨fun e n s hfit hzero => ?_, fun e n s d hd => execInsert_din_update e n s hd, fun a s t h hne => ?_⟩
  · obtain ⟨b, hb, hbits⟩ := execInsert_ok s hfit
    refine ⟨_, hb, fun i j hi hj => ?_⟩
    have hwindow : s.buf.getMsbD (e + 8 * i + j) = false := by
      rw [Nat.add_assoc]; exact hzero _ (by omega)
    show b.getMsbD (e + 8 * i + j) = _
    rw [hbits _ (by omega), if_pos (by omega), hwindow, Bool.and_false, Bool.or_false, byte_getMsbD _ (by omega) hj]
    congr 1; omega
  · have hread : readReg .din t ≠ readReg .din s := fun he => hne (BitVec.eq_of_toNat_eq he)
    rcases takeInput_writers (by decide) (by decide) h hread with ha | ⟨_, hv⟩ | ⟨v, i, _, _, _, _, hmem⟩
    · exact .inl ha
    · exact .inr hv
    · exact absurd hmem (din_notMem_resultRegs i)

/-! ### What a decoder leaves in PFX and PLEN -/

theorem toNat_ofNat_byte {l : Nat} (h : l < 256) : (BitVec.ofNat 8 l).toNat = l := Nat.mod_eq_of_lt h

/-- PFX masked again with the length kept beside it stays as it is (10_state.md R26). -/
theorem mask128_canonical (v : Addr) {l : Nat} (h : l ≤ 128) :
    mask128 (mask128 v l) (BitVec.ofNat 8 l).toNat = mask128 v l := by
  rw [toNat_ofNat_byte (by omega), mask128_idem v h]

/-- Settles O39: success puts the length in the decoder's range, and in range PFX is a masked buffer. -/
theorem decodedPrefixIsCanonical : Obligations.DecodedPrefixIsCanonical := by
  refine fun s t => ⟨fun b h hcode => ?_, fun b h hcode => ?_, fun h hcode => ?_⟩
  · have hb := errorTable_dstDecode_eq_none.mp (errorTable_eq_none_of_code h hcode)
    obtain rfl := Host.Outcome.next.inj ((execDstDecode_ok s hb).symm.trans h)
    exact ⟨mask128_canonical _ (by omega), toNat_ofNat_byte (by omega), hb⟩
  · obtain ⟨hlow, hhigh⟩ := errorTable_srcDecodeBasic_eq_none.mp (errorTable_eq_none_of_code h hcode)
    obtain rfl := Host.Outcome.next.inj ((execSrcDecodeBasic_ok s hlow hhigh).symm.trans h)
    exact ⟨mask128_canonical _ (by omega), toNat_ofNat_byte (by omega), hlow, hhigh⟩
  · obtain ⟨hlow, hhigh⟩ := errorTable_srcDecodeVendor_eq_none.mp (errorTable_eq_none_of_code h hcode)
    obtain rfl := Host.Outcome.next.inj ((execSrcDecodeVendor_ok s hlow hhigh).symm.trans h)
    have hlen : (BitVec.ofNat 8 (vendorLen s.buf)).toNat = vendorLen s.buf := toNat_ofNat_byte (by omega)
    exact ⟨mask128_canonical _ (by omega), hlow.trans_eq hlen.symm, hlen.trans_le hhigh⟩

/-! ### What a command reads -/

/-- Two outcomes that a reader of CODE and of the registers `regs` cannot tell apart: the same code, and on success the same
results. -/
def SameResults (regs : List Reg) (o o' : Host.Outcome State Fault Refusal) : Prop :=
  ∃ t t', o = .next t ∧ o' = .next t' ∧ statusCode t.status = statusCode t'.status ∧
    (statusCode t.status = 0 → ∀ r ∈ regs, readReg r t = readReg r t')

/-- Two failures of one kind: the same code, and no result. -/
theorem SameResults.fail (regs : List Reg) (k : ErrKind) (s s' : State) :
    SameResults regs (Machine.fail k s) (Machine.fail k s') := by
  refine ⟨_, _, rfl, rfl, by simp, fun hcode => ?_⟩
  exact absurd ((statusCode_afterFail s.status k).symm.trans hcode) k.code_ne_ok

/-- Two commits that agree on the result registers, none of which is STATUS. -/
theorem SameResults.commit {regs : List Reg} {t t' : State} (hregs : .status ∉ regs)
    (h : ∀ r ∈ regs, readReg r t = readReg r t') : SameResults regs (Machine.commit t) (Machine.commit t') := by
  refine ⟨_, _, rfl, rfl, by simp, fun _ r hr => ?_⟩
  have := h r hr
  cases r with
  | status => exact absurd hr hregs
  | _ => exact this

theorem execExtract_sameResults {b n : Nat} {s s' : State} (hbuf : s.buf = s'.buf) :
    SameResults [.dout] (execExtract b n s) (execExtract b n s') := by
  simp only [execExtract, hbuf]
  cases ext s'.buf b n with
  | error k => exact .fail ..
  | ok out => exact .commit (by decide) (by simp [readReg])

theorem execInsert_sameResults {e n : Nat} {s s' : State} (hbuf : s.buf = s'.buf) (hdin : s.din = s'.din) :
    SameResults [.buf] (execInsert e n s) (execInsert e n s') := by
  simp only [execInsert, payload, hbuf, hdin]
  split
  · exact .fail ..
  · cases app s'.buf e ((List.range n).map (byte s'.din)) with
    | error k => exact .fail ..
    | ok b => exact .commit (by decide) (by simp [readReg])

theorem execArgsPack_sameResults {s s' : State} (hargs : argsBlock s = argsBlock s') :
    SameResults [.args] (execArgsPack s) (execArgsPack s') :=
  .commit (by decide) (by simp [readReg, hargs])

theorem execArgsUnpack_sameResults {s s' : State} (hargs : s.args = s'.args) :
    SameResults [.qfi, .rf, .uf, .pduid] (execArgsUnpack s) (execArgsUnpack s') :=
  .commit (by decide) (by simp [readReg, hargs])

section Encoders

variable {s s' : State} (hpfx : s.pfx = s'.pfx) (hplen : s.plen = s'.plen) (hipv4 : s.ipv4 = s'.ipv4)

include hpfx hplen hipv4

/-- Both encoders start from PLEN, the masked PFX and the IPv4 payload. -/
theorem encoder_operands_eq : prefixLen s = prefixLen s' ∧ prefixBase s = prefixBase s' ∧ ipv4Bytes s = ipv4Bytes s' := by
  simp only [prefixBase, prefixLen, ipv4Bytes, hpfx, hplen, hipv4, and_self]

theorem execDstEncode_sameResults (hargs : argsBlock s = argsBlock s') :
    SameResults [.buf] (execDstEncode s) (execDstEncode s') := by
  obtain ⟨hlen, hbase, hbytes⟩ := encoder_operands_eq hpfx hplen hipv4
  simp only [execDstEncode, hlen, hbase, hbytes, hargs]
  split
  · exact .fail ..
  · cases app (prefixBase s') (prefixLen s') (ipv4Bytes s') with
    | error k => exact .fail ..
    | ok b1 =>
      simp only
      cases app b1 (prefixLen s' + 32) (bytesOf 5 (argsBlock s')) with
      | error k => exact .fail ..
      | ok b2 => exact .commit (by decide) (by simp [readReg])

theorem execSrcEncode_sameResults (hport : s.port = s'.port) :
    SameResults [.buf] (execSrcEncode s) (execSrcEncode s') := by
  obtain ⟨hlen, hbase, hbytes⟩ := encoder_operands_eq hpfx hplen hipv4
  simp only [execSrcEncode, hlen, hbase, hbytes, portBytes, hport]
  split
  · exact .fail ..
  · cases app (prefixBase s') (prefixLen s') (ipv4Bytes s') with
    | error k => exact .fail ..
    | ok b1 =>
      simp only
      cases app b1 (prefixLen s' + 32) (bytesOf 2 s'.port) with
      | error k => exact .fail ..
      | ok b2 => exact .commit (by decide) (by simp [readReg])

end Encoders

section Decoders

variable {s s' : State} (hbuf : s.buf = s'.buf)

include hbuf

theorem execDstDecode_sameResults (b : Nat) :
    SameResults [.pfx, .plen, .ipv4, .qfi, .rf, .uf, .pduid] (execDstDecode b s) (execDstDecode b s') := by
  by_cases h : b ≤ 56
  · rw [execDstDecode_ok s h, execDstDecode_ok s' h]
    exact .commit (by decide) (by simp [readReg, hbuf])
  · rw [execDstDecode_error s (by omega), execDstDecode_error s' (by omega)]
    exact .fail ..

theorem execSrcDecodeBasic_sameResults (b : Nat) :
    SameResults [.pfx, .plen, .ipv4, .port] (execSrcDecodeBasic b s) (execSrcDecodeBasic b s') := by
  simp only [execSrcDecodeBasic, hbuf]
  split
  · exact .fail ..
  · split
    · exact .fail ..
    · cases ext s'.buf b 4 with
      | error k => exact .fail ..
      | ok r1 => exact .commit (by decide) (by simp [readReg])

theorem execSrcDecodeVendor_sameResults :
    SameResults [.pfx, .plen, .ipv4, .port] (execSrcDecodeVendor s) (execSrcDecodeVendor s') := by
  by_cases h0 : vendorLen s.buf = 0
  · have h0' : vendorLen s'.buf = 0 := hbuf ▸ h0
    simp only [execSrcDecodeVendor, h0, h0', if_true]
    exact .fail ..
  by_cases h : vendorLen s.buf ≤ 73
  · rw [execSrcDecodeVendor_ok s (by omega) h, execSrcDecodeVendor_ok s' (by rw [← hbuf]; omega) (hbuf ▸ h)]
    exact .commit (by decide) (by simp [readReg, hbuf])
  · rw [execSrcDecodeVendor_error s (by omega), execSrcDecodeVendor_error s' (by rw [← hbuf]; omega)]
    exact .fail ..

end Decoders

/-- Settles O45: equal operand registers give every meaning the same case and the same results. -/
theorem commandsReadOnlyTheirOperands : Obligations.CommandsReadOnlyTheirOperands := by
  intro i s s' h
  show SameResults (resultRegs i) (exec i s) (exec i s')
  cases i with
    simp only [operandRegs, List.forall_mem_cons, List.not_mem_nil, readReg, BitVec.toNat_inj, IsEmpty.forall_iff,
      implies_true, and_true] at h
  | extract b n => exact execExtract_sameResults h
  | insert e n => exact execInsert_sameResults h.1 h.2
  | argsPack =>
    obtain ⟨hqfi, hrf, huf, hid⟩ := h
    exact execArgsPack_sameResults (by simp only [argsBlock, hqfi, hrf, huf, hid])
  | argsUnpack => exact execArgsUnpack_sameResults h
  | dstEncode =>
    obtain ⟨hpfx, hplen, hipv4, hqfi, hrf, huf, hid⟩ := h
    exact execDstEncode_sameResults hpfx hplen hipv4 (by simp only [argsBlock, hqfi, hrf, huf, hid])
  | dstDecode b => exact execDstDecode_sameResults h b
  | srcEncode =>
    obtain ⟨hpfx, hplen, hipv4, hport⟩ := h
    exact execSrcEncode_sameResults hpfx hplen hipv4 hport
  | srcDecodeBasic b => exact execSrcDecodeBasic_sameResults h b
  | srcDecodeVendor => exact execSrcDecodeVendor_sameResults h

end Sys2Proof.Machine

/-! # The statements about the register port (20_memory.md)

What an event at the ports does is told by whether its value fits its register (`Input.fits`): a fitting event is served, and it
leaves the events behind it waiting; any other is refused. -/

/-! ### Served or refused -/

namespace Sys2Proof.Machine

/-- Every command word, legal or not, ends in a next state with the same events waiting (30_encoding.md R66). -/
theorem runCommand_next (w : CmdWord) (s : State) : ∃ t, runCommand w s = .next t ∧ t.input = s.input := by
  rcases runCommand_cases w s with ⟨e, _, hrun⟩ | ⟨i, _, hrun⟩
  · exact ⟨_, hrun, rfl⟩
  · obtain ⟨t, ht, hin, _⟩ := exec_next i { s with cmd := w }
    exact ⟨t, hrun.trans ht, hin⟩

/-- An event the interface can carry is served, and leaves the events behind it waiting (20_memory.md R51). -/
theorem takeInput_of_fits {a : Input} (ha : a.fits = true) (s : State) : ∃ t, takeInput a s = .next t ∧ t.input = s.input := by
  cases a with
  | reset => exact ⟨_, rfl, rfl⟩
  | read id => exact ⟨_, rfl, rfl⟩
  | write id v =>
    rcases hostWrite_cases s ha with ⟨_, hw⟩ | ⟨_, hw⟩ | ⟨r, _, _, hw⟩
    · exact ⟨s, hw, rfl⟩
    · obtain ⟨t, ht, hin⟩ := runCommand_next (BitVec.ofNat 32 v) s
      exact ⟨t, hw.trans ht, hin⟩
    · exact ⟨_, hw, (storeReg_host r v s).1⟩

/-- Any other event is refused (93_implementation_defined.md I16). -/
theorem takeInput_of_not_fits {a : Input} (ha : a.fits = false) (s : State) :
    takeInput a s = .refused .valueWiderThanRegister := by
  cases a with
  | reset => cases ha
  | read id => cases ha
  | write id v => exact hostWrite_refused s ha

/-- The events that do not fit: the writes of a register with a value wider than it. -/
theorem Input.fits_eq_false_iff {a : Input} : a.fits = false ↔ ∃ (x : Reg) (v : Nat), a = .write x.id v ∧ 2 ^ x.width ≤ v := by
  constructor
  · intro ha
    cases a with
    | reset => cases ha
    | read id => cases ha
    | write id v =>
      cases hid : Reg.ofId id with
      | none => simp [Input.fits, valueFits, hid] at ha
      | some x => exact ⟨x, v, by rw [Reg.id_of_ofId hid], by simpa [Input.fits, valueFits, hid] using ha⟩
  · rintro ⟨x, v, rfl, hwide⟩
    simpa [Input.fits, valueFits, Reg.ofId_id] using hwide

/-- Settles O57: what waits in a safe state fits, so it is served; STATUS stays legal (O55), and the tail of a fitting queue fits. -/
theorem safeStatesNeverStop : Obligations.SafeStatesNeverStop := by
  rintro s ⟨hstatus, hfit⟩
  cases hin : s.input with
  | nil => exact ⟨s, step_idle hin, hstatus, hfit⟩
  | cons a rest =>
    rw [InputsFit, hin, List.forall_mem_cons] at hfit
    obtain ⟨ha, hrest⟩ := hfit
    obtain ⟨t, ht, hwaiting⟩ := takeInput_of_fits ha { s with input := rest }
    have hstep : step s = .next t := (step_cons hin).trans ht
    refine ⟨t, hstep, stepKeepsStatusLegal s t hstatus hstep, ?_⟩
    rwa [InputsFit, hwaiting]

/-- Settles O51: a step is refused exactly when the event at the head of the queue does not fit. -/
theorem onlyTooWideWritesAreRefused : Obligations.OnlyTooWideWritesAreRefused := by
  intro s r
  constructor
  · intro h
    cases hin : s.input with
    | nil => rw [step_idle hin] at h; cases h
    | cons a rest =>
      rw [step_cons hin] at h
      cases ha : a.fits with
      | true =>
        obtain ⟨t, ht, _⟩ := takeInput_of_fits ha { s with input := rest }
        rw [ht] at h; cases h
      | false =>
        rw [takeInput_of_not_fits ha] at h; cases h
        obtain ⟨x, v, rfl, hwide⟩ := Input.fits_eq_false_iff.mp ha
        exact ⟨rfl, x, v, rest, rfl, hwide⟩
  · rintro ⟨rfl, x, v, rest, hin, hwide⟩
    exact (step_cons hin).trans (takeInput_of_not_fits (Input.fits_eq_false_iff.mpr ⟨x, v, rfl, hwide⟩) _)

/-- Settles O52: an event that is served leaves the queue behind it as it was. -/
theorem stepServesTheOldestAccess : Obligations.StepServesTheOldestAccess := by
  refine ⟨fun s hin => step_idle hin, fun s a rest hin => step_cons hin, fun s t h => ?_⟩
  rcases step_next_cases h with ⟨hin, rfl⟩ | ⟨a, rest, hin, hserved⟩
  · rw [hin, List.tail_nil]
  · rw [hin, List.tail_cons]
    cases ha : a.fits with
    | true =>
      obtain ⟨u, hu, hwaiting⟩ := takeInput_of_fits ha { s with input := rest }
      cases hu.symm.trans hserved
      exact hwaiting
    | false => cases (takeInput_of_not_fits ha _).symm.trans hserved

/-! ### One access of one register -/

/-- Settles O46: the read is the event at the head of the queue, and each number reads the register it names. -/
theorem hostReadHasNoSideEffect : Obligations.HostReadHasNoSideEffect :=
  ⟨fun _ _ _ hin => step_cons hin, fun s =>
    ⟨hostRead_id .cmd s, hostRead_id .status s, hostRead_id .buf s, hostRead_id .din s, hostRead_id .dout s,
      hostRead_id .pfx s, hostRead_id .plen s, hostRead_id .ipv4 s, hostRead_id .port s, hostRead_id .args s,
      hostRead_id .qfi s, hostRead_id .rf s, hostRead_id .uf s, hostRead_id .pduid s⟩⟩

/-- Settles O47: a write of a register other than CMD is stored, and `storeReg` updates the field of that register. -/
theorem hostWriteSetsItsRegister : Obligations.HostWriteSetsItsRegister := by
  intro s v
  have stored (r : Reg) (hr : r ≠ .cmd) (hv : v < 2 ^ r.width) : hostWrite r.id v s = .next (storeReg r v s) :=
    takeInput_stored s hr hv
  exact ⟨stored .buf nofun, stored .din nofun, stored .pfx nofun, stored .plen nofun, stored .ipv4 nofun, stored .port nofun,
    stored .args nofun, stored .qfi nofun, stored .rf nofun, stored .uf nofun, stored .pduid nofun⟩

/-! ### The order of the bits of an address -/

/-- Settles O10: the most significant bit of a value of `w` bits is its bit `w - 1`, in the byte and in the register. -/
theorem addressBitOrder : Obligations.AddressBitOrder := by
  intro v k hk
  have hbyte := byte_getMsbD v (i := k / 8) (j := k % 8) (by omega) (by omega)
  rw [Nat.div_add_mod] at hbyte
  refine ⟨hbyte.symm.trans ?_, ?_⟩
  · simp [BitVec.getMsbD, Nat.mod_lt]
  · simp [BitVec.getMsbD, hk]

/-! ### A command repeated at once -/

/-- A state is its registers and the two lists; STATUS is compared whole, since its reserved bits do not show in a read. -/
theorem State.ext_readReg {s t : State} (hstatus : t.status = s.status) (hin : t.input = s.input)
    (hlog : t.readLog = s.readLog) (h : ∀ r, r ≠ .status → readReg r t = readReg r s) : t = s := by
  cases s; cases t
  simp only [State.mk.injEq]
  exact ⟨BitVec.eq_of_toNat_eq (h .cmd nofun), hstatus, BitVec.eq_of_toNat_eq (h .buf nofun),
    BitVec.eq_of_toNat_eq (h .din nofun), BitVec.eq_of_toNat_eq (h .dout nofun), BitVec.eq_of_toNat_eq (h .pfx nofun),
    BitVec.eq_of_toNat_eq (h .plen nofun), BitVec.eq_of_toNat_eq (h .ipv4 nofun), BitVec.eq_of_toNat_eq (h .port nofun),
    BitVec.eq_of_toNat_eq (h .args nofun), BitVec.eq_of_toNat_eq (h .qfi nofun), BitVec.eq_of_toNat_eq (h .rf nofun),
    BitVec.eq_of_toNat_eq (h .uf nofun), BitVec.eq_of_toNat_eq (h .pduid nofun), hin, hlog⟩

/-- Where the error table names a kind, the command fails with it. -/
theorem exec_of_errorTable_some {i : Instr} {s : State} {k : ErrKind} (h : errorTable i s = some k) : exec i s = fail k s := by
  rcases exec_cases i s with ⟨k', hk', hfail⟩ | ⟨hnone, _⟩
  · rw [h] at hk'; cases hk'; exact hfail
  · rw [h] at hnone; cases hnone

/-- The error table does not read STATUS. -/
theorem errorTable_status_update (i : Instr) (s : State) (st : BitVec 8) : errorTable i { s with status := st } = errorTable i s := by
  cases i <;> rfl

/-- A failure repeated: it meets the same error condition, and STATUS, all that it wrote, takes the same value again. -/
theorem exec_fail_again {i : Instr} {s : State} {k : ErrKind} (h : errorTable i s = some k) :
    exec i { s with status := statusAfterFail s.status k } = .next { s with status := statusAfterFail s.status k } := by
  rw [exec_of_errorTable_some ((errorTable_status_update ..).trans h), fail_eq, statusAfterFail_idem]

/-- A success repeated, by a command that writes none of its operands: it reads what it read before, so it writes what it wrote
before, and the registers it does not write stay. -/
theorem exec_commit_again {i : Instr} {s t : State} (hdisjoint : ∀ r ∈ operandRegs i, r ≠ .status ∧ r ∉ resultRegs i)
    (h : exec i s = .next t) (hstatus : t.status = statusAfterCommit s.status) : exec i t = .next t := by
  have hread : ∀ r ∈ operandRegs i, readReg r s = readReg r t := fun r hr =>
    (readReg_of_exec h (hdisjoint r hr).1 (hdisjoint r hr).2).symm
  obtain ⟨t₁, u, ht₁, hu, hcode, hresults⟩ := commandsReadOnlyTheirOperands i s t hread
  obtain rfl : t₁ = t := Host.Outcome.next.inj (ht₁.symm.trans h)
  have hok : statusCode t₁.status = 0 := by rw [hstatus]; exact statusCode_afterCommit _
  obtain ⟨hframe, hin, hlog⟩ := commandsKeepTheWriteMatrix i t₁ u hu
  have hstatus' : u.status = t₁.status := by
    rcases exec_next_cases hu with ⟨k, hk, _⟩ | ⟨_, hcommit, _⟩
    · cases (errorTable_eq_none_of_code hu (hcode.symm.trans hok)).symm.trans hk
    · rw [hcommit, hstatus, statusAfterCommit_idem]
  have hsame : u = t₁ := State.ext_readReg hstatus' hin hlog fun r hr => by
    by_cases hmem : r ∈ resultRegs i
    · exact (hresults hok r hmem).symm
    · exact hframe r hr hmem
  rw [hu, hsame]

/-- INSERT, which reads the register it writes: its window holds the payload already, and a payload ORed in twice is a payload ORed in
once (40_bitwindow.md R107). -/
theorem execInsert_commit_again {e n : Nat} {s t : State} (hfit : e + 8 * n ≤ 128) (h : execInsert e n s = .next t) :
    execInsert e n t = .next t := by
  obtain ⟨b, hb, hbits⟩ := execInsert_ok s hfit
  obtain rfl := Host.Outcome.next.inj (hb.symm.trans h)
  obtain ⟨b', hb', hbits'⟩ := execInsert_ok { s with buf := b, status := statusAfterCommit s.status } hfit
  have hsame : b' = b := Addr.ext_msb fun m hm => by
    simp only [hbits' m hm, hbits m hm]
    split
    · cases s.din.getMsbD (m - e) <;> simp
    · rfl
  rw [hb', hsame, commit_eq, statusAfterCommit_idem]

/-- Every command but INSERT leaves its operands alone. -/
theorem operandRegs_unwritten {i : Instr} (hi : ∀ e n, i ≠ .insert e n) :
    ∀ r ∈ operandRegs i, r ≠ .status ∧ r ∉ resultRegs i := by
  cases i with
  | insert e n => exact absurd rfl (hi e n)
  | _ => simp [operandRegs, resultRegs]

/-- Settles O44: a failure fails again in the same way; a success repeats because no command but INSERT writes what it reads, and
INSERT's window keeps the payload. -/
theorem commandsAreIdempotent : Obligations.CommandsAreIdempotent := by
  intro i s t h
  rcases exec_next_cases h with ⟨k, hk, rfl⟩ | ⟨hnone, hstatus, _⟩
  · exact exec_fail_again hk
  · by_cases hi : ∃ e n, i = .insert e n
    · obtain ⟨e, n, rfl⟩ := hi
      exact execInsert_commit_again (by simpa [errorTable] using hnone) h
    · exact exec_commit_again (operandRegs_unwritten fun e n he => hi ⟨e, n, he⟩) h hstatus

end Sys2Proof.Machine

/-! # The statements about the command word (30_encoding.md)

A word is its five fields, so a statement about words is one about each field. The decoder accepts the words whose reserved fields are 0
and whose opcode is assigned, and answers the well-formed command whose encoding is the word under the command's `usedMask`
(`decode_eq_ok`): the statements about the decoder and the encoder are read off from that. -/

/-! ### The word, field by field -/

namespace Sys2Proof

/-- Two words are equal when their five fields are (30_encoding.md R60). -/
theorem word_eq_iff {v w : CmdWord} : v = w ↔
    fieldRsv1 v = fieldRsv1 w ∧ fieldNb v = fieldNb w ∧ fieldBit v = fieldBit w ∧ fieldRsv0 v = fieldRsv0 w ∧
      fieldOpc v = fieldOpc w := by
  refine ⟨by rintro rfl; simp, ?_⟩
  rintro ⟨hrsv1, hnb, hbit, hrsv0, hopc⟩
  rw [word_fields v, word_fields w, hrsv1, hnb, hbit, hrsv0, hopc]

@[simp] theorem fieldRsv1_and (v w : CmdWord) : fieldRsv1 (v &&& w) = fieldRsv1 v &&& fieldRsv1 w := BitVec.extractLsb'_and
@[simp] theorem fieldNb_and (v w : CmdWord) : fieldNb (v &&& w) = fieldNb v &&& fieldNb w := BitVec.extractLsb'_and
@[simp] theorem fieldBit_and (v w : CmdWord) : fieldBit (v &&& w) = fieldBit v &&& fieldBit w := BitVec.extractLsb'_and
@[simp] theorem fieldRsv0_and (v w : CmdWord) : fieldRsv0 (v &&& w) = fieldRsv0 v &&& fieldRsv0 w := BitVec.extractLsb'_and
@[simp] theorem fieldOpc_and (v w : CmdWord) : fieldOpc (v &&& w) = fieldOpc v &&& fieldOpc w := BitVec.extractLsb'_and

theorem fieldRsv1_toNat (w : CmdWord) : (fieldRsv1 w).toNat = w.toNat / 2 ^ 21 := by
  have hlt : w.toNat / 2 ^ 21 < 2 ^ 11 := Nat.div_lt_of_lt_mul w.isLt
  rw [fieldRsv1, BitVec.extractLsb'_toNat, Nat.shiftRight_eq_div_pow, Nat.mod_eq_of_lt hlt]

theorem fieldRsv0_toNat (w : CmdWord) : (fieldRsv0 w).toNat = w.toNat / 16 % 16 := by
  rw [fieldRsv0, BitVec.extractLsb'_toNat, Nat.shiftRight_eq_div_pow]

theorem fieldOpc_toNat (w : CmdWord) : (fieldOpc w).toNat = w.toNat % 16 := by
  rw [fieldOpc, BitVec.extractLsb'_toNat, Nat.shiftRight_zero]

theorem toNat_append_eq_add {k m : Nat} (x : BitVec k) (y : BitVec m) : (x ++ y).toNat = x.toNat * 2 ^ m + y.toNat := by
  rw [BitVec.toNat_append, ← Nat.shiftLeft_add_eq_or_of_lt y.isLt, Nat.shiftLeft_eq]

theorem packFields_toNat (n : BitVec 5) (b : BitVec 8) (o : BitVec 4) :
    (packFields n b o).toNat = n.toNat * 2 ^ 16 + b.toNat * 2 ^ 8 + o.toNat := by
  simp only [packFields, toNat_append_eq_add, BitVec.toNat_ofNat]
  omega

/-! ### The masks, field by field -/

/-- Does the opcode use BIT (30_encoding.md R63)? -/
def Instr.usesBit : Instr → Bool
  | .extract _ _ | .insert _ _ | .dstDecode _ | .srcDecodeBasic _ => true
  | _ => false

/-- Does the opcode use NB (30_encoding.md R63)? -/
def Instr.usesNb : Instr → Bool
  | .extract _ _ | .insert _ _ => true
  | _ => false

/-- `usedMask` holds the reserved fields, the opcode, and the operand fields the opcode uses (30_encoding.md R63, R65). -/
theorem usedMask_fields (i : Instr) : fieldRsv1 i.usedMask = BitVec.allOnes 11 ∧
    fieldNb i.usedMask = (if i.usesNb then BitVec.allOnes 5 else 0) ∧
    fieldBit i.usedMask = (if i.usesBit then BitVec.allOnes 8 else 0) ∧
    fieldRsv0 i.usedMask = BitVec.allOnes 4 ∧ fieldOpc i.usedMask = BitVec.allOnes 4 := by
  cases i <;> simp only [Instr.usedMask, Instr.usesNb, Instr.usesBit, Bool.false_eq_true, if_true, if_false] <;> decide

/-- A word under `usedMask`: 0 in the operand fields the opcode ignores, every other field kept. -/
theorem and_usedMask_fields (w : CmdWord) (i : Instr) : fieldRsv1 (w &&& i.usedMask) = fieldRsv1 w ∧
    fieldNb (w &&& i.usedMask) = (if i.usesNb then fieldNb w else 0) ∧
    fieldBit (w &&& i.usedMask) = (if i.usesBit then fieldBit w else 0) ∧
    fieldRsv0 (w &&& i.usedMask) = fieldRsv0 w ∧ fieldOpc (w &&& i.usedMask) = fieldOpc w := by
  obtain ⟨hrsv1, hnb, hbit, hrsv0, hopc⟩ := usedMask_fields i
  rw [fieldRsv1_and, fieldNb_and, fieldBit_and, fieldRsv0_and, fieldOpc_and, hrsv1, hnb, hbit, hrsv0, hopc]
  refine ⟨BitVec.and_allOnes, ?_, ?_, BitVec.and_allOnes, BitVec.and_allOnes⟩
  · cases i.usesNb with
    | true => exact BitVec.and_allOnes
    | false => exact BitVec.and_zero
  · cases i.usesBit with
    | true => exact BitVec.and_allOnes
    | false => exact BitVec.and_zero

/-- A word under the decode mask, which is that of the commands that take no operand (30_encoding.md R65). -/
theorem and_decodeMask_fields (w : CmdWord) : fieldRsv1 (w &&& 0xFFE000FF#32) = fieldRsv1 w ∧
    fieldNb (w &&& 0xFFE000FF#32) = 0 ∧ fieldBit (w &&& 0xFFE000FF#32) = 0 ∧
    fieldRsv0 (w &&& 0xFFE000FF#32) = fieldRsv0 w ∧ fieldOpc (w &&& 0xFFE000FF#32) = fieldOpc w :=
  and_usedMask_fields w .argsPack

/-- An assembler writes 0 in the fields the opcode ignores (30_encoding.md R68). -/
theorem encode_and_usedMask (i : Instr) : encode i &&& i.usedMask = encode i := by
  obtain ⟨_, hbitField, hnbField, _, _⟩ := Laws.EncodedFields.of_packFields i
  obtain ⟨hrsv1, hnb, hbit, hrsv0, hopc⟩ := and_usedMask_fields (encode i) i
  refine word_eq_iff.mpr ⟨hrsv1, hnb.trans ?_, hbit.trans ?_, hrsv0, hopc⟩
  · rw [hnbField]; cases i <;> rfl
  · rw [hbitField]; cases i <;> rfl

/-- The words of the opcode `o`: both reserved fields 0, and `o` in OPC (30_encoding.md R65). -/
theorem and_decodeMask_eq_iff {w : CmdWord} {o : BitVec 4} : w &&& 0xFFE000FF#32 = o.setWidth 32 ↔
    fieldRsv1 w = 0 ∧ fieldRsv0 w = 0 ∧ fieldOpc w = o := by
  have hword : o.setWidth 32 = packFields 0 0 o := by revert o; decide
  obtain ⟨hrsv1, hnb, hbit, hrsv0, hopc⟩ := and_decodeMask_fields w
  rw [hword, word_eq_iff, hrsv1, hnb, hbit, hrsv0, hopc]
  simp

/-! ### What the decoder accepts, and what it answers -/

@[simp] theorem bitFits_iff {b : Nat} : bitFits b = true ↔ b < 256 := decide_eq_true_iff
@[simp] theorem nbFits_iff {n : Nat} : nbFits n = true ↔ n < 32 := decide_eq_true_iff

theorem decodeOpcode_assigned {o b n : Nat} (h1 : 1 ≤ o) (h9 : o ≤ 9) : ∃ i, decodeOpcode o b n = .ok i := by
  interval_cases o <;> exact ⟨_, rfl⟩

/-- An assigned opcode gives its command: the fields it uses become the operands, so that the command is well formed. -/
theorem decodeOpcode_eq_ok {o : BitVec 4} {b : BitVec 8} {n : BitVec 5} {i : Instr} :
    decodeOpcode o.toNat b.toNat n.toNat = .ok i ↔ i.wf = true ∧ i.opc = o ∧
      i.bitField = (if i.usesBit then b else 0) ∧ i.nbField = (if i.usesNb then n else 0) := by
  constructor
  · intro h
    unfold decodeOpcode at h
    split at h
    case h_10 => cases h
    all_goals
      rename_i ho
      cases h
      exact ⟨by simp [Instr.wf, b.isLt, n.isLt], BitVec.eq_of_toNat_eq ho.symm,
        by simp [Instr.bitField, Instr.usesBit], by simp [Instr.nbField, Instr.usesNb]⟩
  · rintro ⟨hwf, rfl, hb, hn⟩
    cases i with
    | extract b' n' | insert b' n' =>
      obtain ⟨hb', hn'⟩ : b' < 256 ∧ n' < 32 := by simpa [Instr.wf] using hwf
      obtain rfl : BitVec.ofNat 8 b' = b := hb
      obtain rfl : BitVec.ofNat 5 n' = n := hn
      simp [decodeOpcode, Instr.opc, Nat.mod_eq_of_lt, hb', hn']
    | dstDecode b' | srcDecodeBasic b' =>
      have hb' : b' < 256 := bitFits_iff.mp hwf
      obtain rfl : BitVec.ofNat 8 b' = b := hb
      simp [decodeOpcode, Instr.opc, Nat.mod_eq_of_lt, hb']
    | _ => rfl

/-- The decoder checks the reserved fields and then looks at the opcode (30_encoding.md R66). -/
theorem decode_eq_ok_iff_decodeOpcode {w : CmdWord} {i : Instr} : decode w = .ok i ↔ fieldRsv1 w = 0 ∧ fieldRsv0 w = 0 ∧
    decodeOpcode (fieldOpc w).toNat (fieldBit w).toNat (fieldNb w).toNat = .ok i := by
  constructor
  · intro h
    rcases decode_cases w with ⟨e, he⟩ | ⟨hrsv1, hrsv0, hdecode, _⟩
    · cases h.symm.trans he
    · exact ⟨hrsv1, hrsv0, hdecode.symm.trans h⟩
  · rintro ⟨hrsv1, hrsv0, hopcode⟩
    rw [decode, if_neg (not_not.mpr hrsv1), if_neg (not_not.mpr hrsv0), hopcode]

/-- The decoder accepts a word whose reserved fields are 0 and whose opcode is assigned. -/
theorem decode_isOk {w : CmdWord} : (∃ i, decode w = .ok i) ↔
    fieldRsv1 w = 0 ∧ fieldRsv0 w = 0 ∧ 1 ≤ (fieldOpc w).toNat ∧ (fieldOpc w).toNat ≤ 9 := by
  constructor
  · rintro ⟨i, h⟩
    rcases decode_cases w with ⟨e, he⟩ | ⟨hrsv1, hrsv0, _, hassigned⟩
    · cases h.symm.trans he
    · exact ⟨hrsv1, hrsv0, hassigned⟩
  · rintro ⟨hrsv1, hrsv0, h1, h9⟩
    obtain ⟨i, hi⟩ := decodeOpcode_assigned h1 h9
    exact ⟨i, decode_eq_ok_iff_decodeOpcode.mpr ⟨hrsv1, hrsv0, hi⟩⟩

/-- What the decoder answers: the command that the word encodes, the fields its opcode ignores aside. -/
theorem decode_eq_ok {w : CmdWord} {i : Instr} : decode w = .ok i ↔ i.wf = true ∧ encode i = w &&& i.usedMask := by
  obtain ⟨hopcE, hbitE, hnbE, hrsv0E, hrsv1E⟩ := Laws.EncodedFields.of_packFields i
  obtain ⟨hrsv1, hnb, hbit, hrsv0, hopc⟩ := and_usedMask_fields w i
  rw [decode_eq_ok_iff_decodeOpcode, decodeOpcode_eq_ok, word_eq_iff, hrsv1, hnb, hbit, hrsv0, hopc, hopcE, hbitE, hnbE, hrsv0E,
    hrsv1E]
  constructor
  · rintro ⟨h1, h0, hwf, ho, hb, hn⟩
    exact ⟨hwf, h1.symm, hn, hb, h0.symm, ho⟩
  · rintro ⟨hwf, h1, hn, hb, h0, ho⟩
    exact ⟨h1.symm, h0.symm, hwf, ho, hb, hn⟩

/-! ### Decoder and encoder together -/

/-- Settles O1: an encoding holds 0 in every field its opcode ignores. -/
theorem decodeOfEncodeIsIdentity : Obligations.DecodeOfEncodeIsIdentity :=
  fun i hwf => decode_eq_ok.mpr ⟨hwf, (encode_and_usedMask i).symm⟩

/-- Settles O2, one half of `decode_eq_ok`. -/
theorem encodeOfDecodeKeepsUsedFields : Obligations.EncodeOfDecodeKeepsUsedFields :=
  fun _ _ => decode_eq_ok.mp

/-- The decoder reads no bit outside the mask of the command it answers. -/
theorem decode_of_and_usedMask_eq {w w' : CmdWord} {i : Instr} (h : decode w = .ok i)
    (hsame : w' &&& i.usedMask = w &&& i.usedMask) : decode w' = .ok i := by
  rw [decode_eq_ok] at h ⊢
  rwa [hsame]

/-- The match of a legal word (30_encoding.md R65). -/
theorem and_decodeMask_of_decode {w : CmdWord} {i : Instr} (h : decode w = .ok i) :
    w &&& 0xFFE000FF#32 = i.opc.setWidth 32 := by
  obtain ⟨hrsv1, hrsv0, hopcode⟩ := decode_eq_ok_iff_decodeOpcode.mp h
  obtain ⟨_, hopc, _⟩ := decodeOpcode_eq_ok.mp hopcode
  exact and_decodeMask_eq_iff.mpr ⟨hrsv1, hrsv0, hopc.symm⟩

/-- Settles O3: a match under the decode mask is one in the reserved fields and the opcode, all that the decoder checks. -/
theorem ignoredFieldsHaveNoEffect : Obligations.IgnoredFieldsHaveNoEffect := by
  refine ⟨fun w => ?_, fun w i h => and_decodeMask_of_decode h, fun w w' i => decode_of_and_usedMask_eq⟩
  have hword {o : Nat} (h9 : o ≤ 9) : BitVec.ofNat 32 o = (BitVec.ofNat 4 o).setWidth 32 := by
    interval_cases o <;> rfl
  rw [decode_isOk]
  constructor
  · rintro ⟨hrsv1, hrsv0, h1, h9⟩
    refine ⟨_, h1, h9, ?_⟩
    rw [hword h9, and_decodeMask_eq_iff, BitVec.ofNat_toNat, BitVec.setWidth_eq]
    exact ⟨hrsv1, hrsv0, rfl⟩
  · rintro ⟨o, h1, h9, hmatch⟩
    rw [hword h9, and_decodeMask_eq_iff] at hmatch
    obtain ⟨hrsv1, hrsv0, hopc⟩ := hmatch
    have ho : (fieldOpc w).toNat = o := by rw [hopc]; exact Nat.mod_eq_of_lt (by omega)
    exact ⟨hrsv1, hrsv0, by omega, by omega⟩

/-! ### Illegal words -/

/-- The illegal words, by their number (30_encoding.md R64). -/
theorem decode_isError_iff (w : CmdWord) : (∃ e, decode w = .error e) ↔
    ((w.toNat % 16 = 0 ∨ 0xA ≤ w.toNat % 16) ∨ w.toNat / 16 % 16 ≠ 0 ∨ w.toNat / 2 ^ 21 ≠ 0) := by
  have hnot : (∃ e, decode w = .error e) ↔ ¬ ∃ i, decode w = .ok i := by cases decode w <;> simp
  rw [hnot, decode_isOk, ← BitVec.toNat_inj, ← BitVec.toNat_inj (x := fieldRsv0 w), fieldRsv1_toNat, fieldRsv0_toNat,
    fieldOpc_toNat]
  simp only [BitVec.ofNat_eq_ofNat, BitVec.toNat_ofNat, Nat.zero_mod]
  omega

end Sys2Proof

namespace Sys2Proof.Machine

/-- STATUS after an illegal word: CODE 5 and STICKY, the reserved bits kept (60_exceptions.md R203). -/
theorem statusAfterFail_illegalCmd (st : BitVec 8) : statusAfterFail st .illegalCmd = (st &&& 0x78#8) ||| 0x85#8 := by
  rw [statusAfterFail_eq, BitVec.or_assoc]
  rfl

theorem runCommand_of_error {w : CmdWord} {e : DecodeError} (h : decode w = .error e) (s : State) :
    runCommand w s = fail .illegalCmd { s with cmd := w } := by
  rw [runCommand, h]

theorem runCommand_of_ok {w : CmdWord} {i : Instr} (h : decode w = .ok i) (s : State) :
    runCommand w s = exec i { s with cmd := w } := by
  rw [runCommand, h]

/-- Settles O4: the write of CMD stores the word, and the illegal word fails. -/
theorem illegalWordFails : Obligations.IllegalWordFails := by
  refine fun w => ⟨decode_isError_iff w, fun s ⟨e, he⟩ => ?_⟩
  calc hostWrite 0x00 w.toNat s
      = runCommand w s := takeInput_cmd w s
    _ = fail .illegalCmd { s with cmd := w } := runCommand_of_error he s
    _ = .next { s with cmd := w, status := (s.status &&& 0x78#8) ||| 0x85#8 } := by rw [fail_eq, statusAfterFail_illegalCmd]

/-! ### The assembler -/

/-- A command line that is not refused: the write of CMD with the fields in their places (30_encoding.md R60, R68). -/
theorem assemble_command {i : Instr} (h : i.wf = true) : assemble (.command i) =
    some (.write 0x00 (i.nbField.toNat * 2 ^ 16 + i.bitField.toNat * 2 ^ 8 + i.opc.toNat)) := by
  rw [← packFields_toNat]
  exact if_pos h

theorem assemble_command_eq_none {i : Instr} : assemble (.command i) = none ↔ i.wf = false := by
  simp [assemble, Line.expand]

/-- A literal that is not refused has the width of its register. -/
theorem Literal.value_lt {l : Literal} {width n : Nat} (h : l.value width = some n) : n < 2 ^ width := by
  cases l with
  | number m =>
    obtain ⟨hlt, hm⟩ := Option.ite_none_right_eq_some.mp h
    exact Option.some.inj hm ▸ hlt
  | bytes l =>
    obtain ⟨⟨rfl, _⟩, hn⟩ := Option.ite_none_right_eq_some.mp h
    exact Option.some.inj hn ▸ BitVec.isLt _

theorem valueFits_id {r : Reg} {n : Nat} : valueFits r.id n = true ↔ n < 2 ^ r.width := by
  simp [valueFits, Reg.ofId_id]

theorem fits_of_assemble_wr {r : Reg} {v : Literal} {a : Input} (h : assemble (.wr r v) = some a) : a.fits = true := by
  obtain ⟨n, hn, rfl⟩ := Option.map_eq_some_iff.mp h
  exact valueFits_id.mpr (Literal.value_lt hn)

/-- A line that is not refused gives an access the interface can carry (20_memory.md R46). -/
theorem fits_of_assemble {l : Line} {a : Input} (h : assemble l = some a) : a.fits = true := by
  cases l with
  | wr r v => exact fits_of_assemble_wr h
  | clrsticky => exact fits_of_assemble_wr (r := .status) (v := .number 0x80) h
  | clrbuf => exact fits_of_assemble_wr (r := .buf) (v := .number 0) h
  | rd r => cases h; rfl
  | check => cases h; rfl
  | command i =>
    obtain ⟨_, ha⟩ := Option.ite_none_right_eq_some.mp h
    cases ha
    exact (valueFits_id (r := .cmd)).mpr (encode i).isLt
  | cmd w =>
    obtain ⟨hw, ha⟩ := Option.ite_none_right_eq_some.mp h
    cases ha
    exact (valueFits_id (r := .cmd)).mpr hw

/-- Settles O7: the word of a command line is the sum of its fields in their places. -/
theorem commandLinesAssemble : Obligations.CommandLinesAssemble := by
  refine ⟨fun b n hb hn => ?_, assemble_command rfl, assemble_command rfl, assemble_command rfl, assemble_command rfl,
    assemble_command rfl, fun _ => assemble_command_eq_none, fun _ _ => fits_of_assemble⟩
  have hwfExtract : (Instr.extract b n).wf = true := by simp [Instr.wf, hb, hn]
  have hwfInsert : (Instr.insert b n).wf = true := by simp [Instr.wf, hb, hn]
  have hwfDst : (Instr.dstDecode b).wf = true := bitFits_iff.mpr hb
  have hwfSrc : (Instr.srcDecodeBasic b).wf = true := bitFits_iff.mpr hb
  rw [assemble_command hwfExtract, assemble_command hwfInsert, assemble_command hwfDst, assemble_command hwfSrc]
  simp [Instr.nbField, Instr.bitField, Instr.opc, Nat.mod_eq_of_lt, hb, hn]

/-! ### The step of a command word -/

theorem tableWord_toNat (w : CmdWord) : tableWord 32 w.toNat = w.toNat := by
  rw [tableWord, Nat.mod_mod, Nat.mod_eq_of_lt w.isLt]

theorem commandWrite_toNat (w : CmdWord) : commandWrite 32 w.toNat = .write 0x00 w.toNat := by
  rw [commandWrite, tableWord_toNat]
  rfl

theorem step_of_decode {s : State} {w : CmdWord} {i : Instr} {rest : List Input} (hin : s.input = .write 0x00 w.toNat :: rest)
    (hdecode : decode w = .ok i) : step s = exec i { s with input := rest, cmd := w } := by
  rw [step_cons hin, takeInput_cmd, runCommand_of_ok hdecode]

/-- Settles O5: `withFetchWord` places the write of the word at the head of the queue. -/
theorem stepRunsTheDecodedCommand : Obligations.StepRunsTheDecodedCommand := by
  refine ⟨fun s w i rest => step_of_decode, fun s w i hdecode => step_of_decode (rest := s.input) ?_ hdecode⟩
  rw [withFetchWord_input, commandWrite_toNat]

/-! ### Words and lines written out -/

/-- Settles O6: the decoder runs on each word. -/
theorem sampleWordsDecode : Obligations.SampleWordsDecode := ⟨rfl, rfl, rfl, rfl, rfl, rfl, rfl, rfl⟩

/-- Settles O8: a pseudo-instruction is assembled as the line it expands to. -/
theorem pseudoInstructionsExpand : Obligations.PseudoInstructionsExpand := ⟨rfl, rfl, rfl, rfl, rfl, rfl⟩

/-- Settles O9: the reader and the assembler run on each line. -/
theorem exampleLinesAssemble : Obligations.ExampleLinesAssemble := by
  refine ⟨?_, ?_, ?_, ?_, ?_, ?_, rfl⟩ <;> decide

end Sys2Proof.Machine

/-! # The statements about windows (40_bitwindow.md)

A window of an address is a run of address bits, so each closed form of the spec is given its bits once (`windowMask_getMsbD`,
`be_getMsbD_of_lt`, `putWindow_getMsbD`) and then compared with the bits that `ext` and `app` answer. -/

namespace Sys2Proof.Machine

/-! ### A payload and the value it spells -/

/-- A value is read off the bits of its bytes. -/
theorem be_getMsbD_payloadBit {w k : Nat} {l : List Byte} (hw : w = 8 * l.length) (hk : k < w) :
    (be w l).getMsbD k = payloadBit l k := by
  have hi : k / 8 < l.length := by omega
  have h := be_getMsbD l hw hi (Nat.mod_lt k (by decide : 0 < 8))
  rw [Nat.div_add_mod] at h
  rw [h, payloadBit, List.getD_eq_getElem _ _ hi]

/-- What `ext` answers, bit by bit, is the window (40_bitwindow.md R102). -/
theorem payloadBit_ext {s n k : Nat} (buf : Addr) (h : s + 8 * n ≤ 128) (hk : k < 8 * n) :
    payloadBit ((List.range n).map (extByte buf s)) k = buf.getMsbD (s + k) := by
  rw [← be_ext_getMsbD buf rfl h hk, be_getMsbD_payloadBit (by simp) hk]

theorem be_zeros_append (w k : Nat) (l : List Byte) : be w (List.replicate k 0 ++ l) = be w l := by
  induction k with
  | zero => rfl
  | succ k ih => simpa [be, List.replicate_succ] using ih

theorem payloadBit_zeros_append (k m : Nat) (l : List Byte) :
    payloadBit (List.replicate k 0 ++ l) m = if m < 8 * k then false else payloadBit l (m - 8 * k) := by
  unfold payloadBit
  split
  · rw [List.getD_append _ _ _ _ (by simp; omega)]
    simp
  · rw [List.getD_append_right _ _ _ _ (by simp; omega), List.length_replicate,
      show m / 8 - k = (m - 8 * k) / 8 by omega, show m % 8 = (m - 8 * k) % 8 by omega]

/-- The value of a short payload stands at the low end of the 128 bits, with zeros before it. -/
theorem be_getMsbD_of_length_le {p : List Byte} {k : Nat} (hp : p.length ≤ 16) (hk : k < 128) :
    (be 128 p).getMsbD k = if k < 128 - 8 * p.length then false else payloadBit p (k - (128 - 8 * p.length)) := by
  rw [← be_zeros_append 128 (16 - p.length) p, be_getMsbD_payloadBit (by simp; omega) hk, payloadBit_zeros_append,
    show 8 * (16 - p.length) = 128 - 8 * p.length by omega]

/-! ### The mask of a window -/

/-- `ones(w)` shifted up to a window of `w` bits from address bit `e` on has exactly the bits of that window. -/
theorem windowMask_getMsbD {e w m : Nat} (h : e + w ≤ 128) (hm : m < 128) :
    (BitVec.ofNat 128 (2 ^ w - 1) <<< (128 - w - e)).getMsbD m = decide (e ≤ m ∧ m < e + w) := by
  rw [BitVec.getMsbD_shiftLeft, BitVec.getMsbD_eq_getLsbD, BitVec.getLsbD_ofNat, Nat.testBit_two_pow_sub_one,
    ← Bool.decide_and, ← Bool.decide_and, decide_eq_decide]
  omega

/-- `mask128` by the mask of the first window. -/
theorem mask128_eq_and (v : Addr) {w : Nat} (hw : w ≤ 128) :
    mask128 v w = v &&& (BitVec.ofNat 128 (2 ^ w - 1) <<< (128 - w)) := by
  refine Addr.ext_msb fun m hm => ?_
  have hmask := windowMask_getMsbD (e := 0) (w := w) (by omega) hm
  rw [Nat.sub_zero] at hmask
  simp [mask128_getMsbD v hw, BitVec.getMsbD_and, hmask]

/-! ### A value put into a window -/

/-- The closed form of 40_bitwindow.md R107: `v`, a value of `8n` bits, put into the window of `buf` from address bit `e` on; ORed in
on the unaligned path, copied on the aligned path. -/
def putWindow (buf : Addr) (e n : Nat) (v : Addr) : Addr :=
  if e % 8 ≠ 0 then buf ||| (v <<< (128 - 8 * n - e))
  else (buf &&& ~~~(BitVec.ofNat 128 (2 ^ (8 * n) - 1) <<< (128 - 8 * n - e))) ||| (v <<< (128 - 8 * n - e))

/-- A value of `w` bits shifted up to the window from address bit `e` on: its bits inside, zeros around it. -/
theorem shiftToWindow_getMsbD {v : Addr} {e w m : Nat} (h : e + w ≤ 128) (hv : ∀ k, k < 128 - w → v.getMsbD k = false) :
    (v <<< (128 - w - e)).getMsbD m = if e ≤ m ∧ m < e + w then v.getMsbD (128 - w + (m - e)) else false := by
  rw [BitVec.getMsbD_shiftLeft]
  split
  · congr 1; omega
  · by_cases hlow : m < e
    · exact hv _ (by omega)
    · exact BitVec.getMsbD_of_ge _ _ (by omega)

/-- The closed form, bit by bit (40_bitwindow.md R108). -/
theorem putWindow_getMsbD {v : Addr} {e n m : Nat} (buf : Addr) (h : e + 8 * n ≤ 128)
    (hv : ∀ k, k < 128 - 8 * n → v.getMsbD k = false) (hm : m < 128) :
    (putWindow buf e n v).getMsbD m =
      if e ≤ m ∧ m < e + 8 * n then v.getMsbD (128 - 8 * n + (m - e)) || (decide (e % 8 ≠ 0) && buf.getMsbD m)
      else buf.getMsbD m := by
  unfold putWindow
  by_cases ho : e % 8 ≠ 0
  · rw [if_pos ho, BitVec.getMsbD_or, shiftToWindow_getMsbD h hv]
    split <;> simp [ho, Bool.or_comm]
  · rw [if_neg ho, BitVec.getMsbD_or, BitVec.getMsbD_and, BitVec.getMsbD_not, windowMask_getMsbD h hm,
      shiftToWindow_getMsbD h hv]
    by_cases hin : e ≤ m ∧ m < e + 8 * n
    · simp [ho, hin]
    · simp [hin, hm]

/-- `app` puts the payload's value into its window. -/
theorem app_eq_putWindow {e : Nat} (buf : Addr) {p : List Byte} (h : e + 8 * p.length ≤ 128) :
    app buf e p = .ok (putWindow buf e p.length (be 128 p)) := by
  obtain ⟨r, hr, hbits⟩ := app_ok buf h
  have hlen : p.length ≤ 16 := by omega
  rw [hr]
  congr 1
  refine Addr.ext_msb fun m hm => ?_
  rw [hbits m hm, putWindow_getMsbD buf h (fun k hk => by rw [be_getMsbD_of_length_le hlen (by omega), if_pos hk]) hm]
  split
  · rw [be_getMsbD_of_length_le hlen (by omega), if_neg (by omega), Nat.add_sub_cancel_left]
  · rfl

/-- INSERT puts the leading bits of DIN into its window. -/
theorem execInsert_eq_putWindow {e n : Nat} (s : State) (h : e + 8 * n ≤ 128) :
    execInsert e n s = commit { s with buf := putWindow s.buf e n (s.din >>> (128 - 8 * n)) } := by
  obtain ⟨b, hb, hbits⟩ := execInsert_ok s h
  rw [hb]
  congr 2
  refine Addr.ext_msb fun m hm => ?_
  rw [hbits m hm, putWindow_getMsbD s.buf h (fun k hk => by simp [BitVec.getMsbD_ushiftRight, hk]) hm]
  split
  · rw [BitVec.getMsbD_ushiftRight]
    simp [show 128 - 8 * n + (m - e) < 128 by omega]
  · rfl

/-! ### `ext` and `app` -/

/-- Settles O11: the window is cut out of the shifted buffer. -/
theorem extClosedForm : Obligations.ExtClosedForm := by
  intro buf s n h
  refine ⟨_, ext_ok buf h, by simp, ?_⟩
  rw [be_ext_eq buf rfl h, BitVec.setWidth_ushiftRight_eq_extractLsb]

/-- Settles O12: `app`'s value is `putWindow`, and an empty payload leaves the loop at once. -/
theorem appClosedForm : Obligations.AppClosedForm := by
  intro buf e p h
  refine ⟨app_eq_putWindow buf ((ceilDiv8_add_le e p.length).mp h), fun hempty => ?_⟩
  obtain rfl := List.eq_nil_of_length_eq_zero hempty
  exact if_neg (Nat.not_lt.mpr h)

/-- Settles O13: both checks are the bound of the window, met or passed. -/
theorem windowBoundsAgree : Obligations.WindowBoundsAgree := by
  intro buf e p
  refine ⟨ceilDiv8_add_le e p.length, ?_⟩
  by_cases h : e + 8 * p.length ≤ 128
  · simp [ext_ok buf h, app_eq_putWindow buf h, h]
  · have hout := Nat.lt_of_not_le h
    simp [ext_error buf hout, app_error buf hout, h]

/-- Settles O14: over zeros, an OR and a copy both leave the extracted bits in the window and zeros around it. -/
theorem bitWindowRoundTrip : Obligations.BitWindowRoundTrip := by
  intro b s n h
  refine ⟨_, ext_ok b h, ?_⟩
  obtain ⟨r, hr, hbits⟩ := app_ok (e := s) 0 (p := (List.range n).map (extByte b s)) (by simpa using h)
  rw [hr]
  congr 1
  refine Addr.ext_msb fun m hm => ?_
  rw [hbits m hm, BitVec.getMsbD_and, windowMask_getMsbD h hm, List.length_map, List.length_range]
  by_cases hin : s ≤ m ∧ m < s + 8 * n
  · rw [if_pos hin, payloadBit_ext b h (by omega), Nat.add_sub_cancel' hin.1]
    simp [hin]
  · simp [hin]

/-! ### EXTRACT and INSERT -/

/-- Settles O15: the justified window is the shifted buffer under the mask of `8n` leading ones. -/
theorem extractWritesTheWindow : Obligations.ExtractWritesTheWindow := by
  intro b n s h
  rw [← mask128_eq_and _ (by omega), ← statusAfterCommit_eq]
  exact execExtract_ok s h

/-- Settles O17: INSERT commits `putWindow` of DIN's leading bits. -/
theorem insertWritesTheWindow : Obligations.InsertWritesTheWindow := by
  intro e n s h
  rw [← statusAfterCommit_eq]
  exact execInsert_eq_putWindow s h

/-- Settles O18: each clause is one case of the bits that INSERT leaves in BUF. -/
theorem insertBitByBit : Obligations.InsertBitByBit := by
  intro e n s h
  obtain ⟨b, hb, hbits⟩ := execInsert_ok s h
  have inside : ∀ m, m < 8 * n → b.getMsbD (e + m) =
      (s.din.getMsbD m || (decide (e % 8 ≠ 0) && s.buf.getMsbD (e + m))) := fun m hm => by
    rw [hbits _ (by omega), if_pos (by omega), Nat.add_sub_cancel_left]
  refine ⟨_, hb, fun m hm hout => ?_, fun haligned m hm => ?_, fun hunaligned m hm => ?_, fun hzero m hm => ?_⟩
  · exact (hbits m hm).trans (if_neg (by omega))
  · exact (inside m hm).trans (by simp [haligned])
  · exact (inside m hm).trans (by simp [hunaligned, Bool.or_comm])
  · exact (inside m hm).trans (by simp [hzero m hm])

theorem errorTable_insert_eq_none {e n : Nat} {s : State} : errorTable (.insert e n) s = none ↔ e + 8 * n ≤ 128 := by
  simp [errorTable]

/-- Settles O20: success means that the window fits; over zeros it then holds DIN's leading bits, which EXTRACT reads. -/
theorem extractAfterInsert : Obligations.ExtractAfterInsert := by
  intro e n s t hzero hinsert hcode
  have hfit := errorTable_insert_eq_none.mp (errorTable_eq_none_of_code hinsert hcode)
  obtain ⟨t', ht', -, -, -, hwindow⟩ := insertBitByBit e n s hfit
  obtain rfl : t' = t := Host.Outcome.next.inj (ht'.symm.trans hinsert)
  refine ⟨_, execExtract_ok t' hfit, statusCode_afterCommit _, fun i hi => Byte.ext_msb fun j hj => ?_⟩
  rw [justified_byte_getMsbD _ hfit (by omega) hj, decide_eq_true hi, Bool.and_true, byte_getMsbD _ (by omega) hj, Nat.add_assoc]
  exact hwindow (fun m hm => hzero _ (by omega) (by omega)) _ (by omega)

/-- Settles O21: each command fails with its own kind, and STATUS takes the kind's code under STICKY. -/
theorem windowOutOfBoundsFails : Obligations.WindowOutOfBoundsFails := by
  intro b n s h
  have status : ∀ k, statusAfterFail s.status k = (s.status &&& 0x78#8) ||| (0x80#8 ||| k.code.setWidth 8) := fun k => by
    rw [statusAfterFail_eq, BitVec.or_assoc]
  constructor
  · refine (execExtract_error s h).trans ?_
    rw [fail_eq, status]
    rfl
  · refine (execInsert_error s h).trans ?_
    rw [fail_eq, status]
    rfl

end Sys2Proof.Machine

/-! # The statements about the argument block (41_argsmob.md)

`args_ser` is the concatenation of the four fields and `args_de` cuts a block back into them; ARGS_PACK and ARGS_UNPACK commit what
these two answer. -/

namespace Sys2Proof.Machine

/-! ### `args_ser` and `args_de` -/

/-- The byte that `args_ser` shifts together is QFI, R and U side by side (41_argsmob.md R121, R123). -/
theorem argsFirstByte_eq_append (q : BitVec 6) (r u : BitVec 1) :
    (q.setWidth 8 <<< 2) ||| (r.setWidth 8 <<< 1) ||| u.setWidth 8 = q ++ r ++ u := by
  revert q r u
  decide

theorem argsSer_eq_append (q : BitVec 6) (r u : BitVec 1) (id : BitVec 32) : argsSer q r u id = q ++ r ++ u ++ id := by
  rw [argsSer, argsFirstByte_eq_append]

theorem extractLsb'_eq_ofNat_div {w : Nat} (v : BitVec w) (start len : Nat) :
    v.extractLsb' start len = BitVec.ofNat len (v.toNat / 2 ^ start) := by
  rw [BitVec.extractLsb', Nat.shiftRight_eq_div_pow]

/-- `args_de` by division of the block, read as one number. -/
theorem argsDe_eq_div (a : BitVec 40) : argsDe a =
    (BitVec.ofNat 6 (a.toNat / 2 ^ 34), BitVec.ofNat 1 (a.toNat / 2 ^ 33), BitVec.ofNat 1 (a.toNat / 2 ^ 32),
      BitVec.ofNat 32 a.toNat) := by
  simp only [argsDe, extractLsb'_eq_ofNat_div, pow_zero, Nat.div_one]

/-- `args_de` of four fields side by side: each cut falls on the border of two fields. -/
theorem argsDe_append (q : BitVec 6) (r u : BitVec 1) (id : BitVec 32) : argsDe (q ++ r ++ u ++ id) = (q, r, u, id) := by
  have hq : (q ++ r ++ u ++ id).extractLsb' 34 6 = q := by
    rw [BitVec.extractLsb'_append_eq_of_le (by decide), BitVec.extractLsb'_append_eq_of_le (by decide)]
    exact BitVec.extractLsb'_append_eq_left
  have hr : (q ++ r ++ u ++ id).extractLsb' 33 1 = r := by
    rw [BitVec.extractLsb'_append_eq_of_le (by decide), BitVec.extractLsb'_append_eq_of_le (by decide)]
    exact BitVec.extractLsb'_append_eq_right
  have hu : (q ++ r ++ u ++ id).extractLsb' 32 1 = u := by
    rw [BitVec.extractLsb'_append_eq_of_le (by decide)]
    exact BitVec.extractLsb'_append_eq_right
  have hid : (q ++ r ++ u ++ id).extractLsb' 0 32 = id := BitVec.extractLsb'_append_eq_right
  rw [argsDe, hq, hr, hu, hid]

/-- A block is the four fields cut from it, side by side: each field begins where the one after it ends. -/
theorem append_argsDe (a : BitVec 40) : (argsDe a).1 ++ (argsDe a).2.1 ++ (argsDe a).2.2.1 ++ (argsDe a).2.2.2 = a := by
  simp only [argsDe]
  rw [BitVec.extractLsb'_append_extractLsb'_eq_extractLsb' (by decide),
    BitVec.extractLsb'_append_extractLsb'_eq_extractLsb' (by decide),
    BitVec.extractLsb'_append_extractLsb'_eq_extractLsb' (by decide)]
  exact BitVec.extractLsb'_eq_self

/-! ### ARGS_PACK and ARGS_UNPACK -/

/-- Settles O22: ARGS_PACK commits `args_ser` of the field registers, which is their concatenation. -/
theorem argsPackWritesArgs : Obligations.ArgsPackWritesArgs := by
  intro s
  rw [← statusAfterCommit_eq, ← argsSer_eq_append]
  rfl

/-- Settles O23: ARGS_UNPACK commits the four fields of `args_de`, which are the parts of ARGS by division. -/
theorem argsUnpackWritesFields : Obligations.ArgsUnpackWritesFields := by
  intro s
  have hexec : exec .argsUnpack s = commit (setArgsFields s.args s) := rfl
  rw [hexec, commit_eq, setArgsFields_status, statusAfterCommit_eq, setArgsFields, argsDe_eq_div]

/-- TOO_SHORT_TO_PARSE is no command's end (60_exceptions.md R202): a failure takes its kind from the error table, which does not
name it. -/
theorem statusCode_ne_tooShortToParse {i : Instr} {s t : State} (h : exec i s = .next t) : statusCode t.status ≠ 1 := by
  rcases exec_next_cases h with ⟨k, hk, rfl⟩ | ⟨-, hcommit, -⟩
  · intro hcode
    have hmem := ErrKind.code_mem_producedCodes (errorTable_kinds hk).1
    rw [← statusCode_afterFail s.status k, hcode] at hmem
    exact absurd hmem (by decide)
  · rw [hcommit, statusCode_afterCommit]
    decide

/-- Settles O24: both ways round the codec goes through the concatenation of the four fields, and no command takes code 1. -/
theorem argsCodecIsABijection : Obligations.ArgsCodecIsABijection := by
  refine ⟨fun q r u id => ?_, fun a => ?_, fun _ _ _ h => statusCode_ne_tooShortToParse h⟩
  · rw [argsSer_eq_append, argsDe_append]
  · rw [argsSer_eq_append, append_argsDe]

end Sys2Proof.Machine

/-! # The statements about the destination address (42_dst.md)

DST_ENCODE leaves the masked PFX, the IPv4 payload and the argument block side by side (`execDstEncode_ok`), and DST_DECODE cuts
windows out of BUF (`execDstDecode_ok`). So each statement compares an address with its parts bit by bit: `window_eq` says which value
a window holds, and `eq_or_of_layout` which number the parts of a layout make. A command that fails is told from the error table
(`exec_of_errorTable_some`). -/

/-! ### Windows and values in an address -/

namespace Sys2Proof.Machine

/-- The window of `w` bits from address bit `a` on, bit by bit. -/
theorem window_getMsbD {a w k : Nat} (v : Addr) (h : a + w ≤ 128) (hk : k < w) :
    ((v <<< a).extractLsb' (128 - w) w).getMsbD k = v.getMsbD (a + k) := by
  rw [BitVec.getMsbD_extractLsb', BitVec.getMsbD_shiftLeft, decide_eq_true hk, decide_eq_true (by omega), Bool.true_and,
    Bool.true_and]
  congr 1; omega

/-- A window holds the value whose bits stand there. -/
theorem window_eq {a w : Nat} {v : Addr} {x : BitVec w} (h : a + w ≤ 128)
    (hx : ∀ k, k < w → v.getMsbD (a + k) = x.getMsbD k) : (v <<< a).extractLsb' (128 - w) w = x :=
  BitVec.eq_of_getMsbD_eq fun k hk => (window_getMsbD v h hk).trans (hx k hk)

/-- Two addresses with the same bits in a window give it the same value. -/
theorem window_congr {a w : Nat} {u v : Addr} (h : a + w ≤ 128) (huv : ∀ m, a ≤ m → m < a + w → u.getMsbD m = v.getMsbD m) :
    (u <<< a).extractLsb' (128 - w) w = (v <<< a).extractLsb' (128 - w) w :=
  window_eq h fun k hk => (huv _ (by omega) (by omega)).trans (window_getMsbD v h hk).symm

/-- A part of a window is a window that begins later: the closed form of one field of the argument block. -/
theorem extractLsb'_window {a w p l : Nat} (v : Addr) (h : a + w ≤ 128) (hl : p + l ≤ w) :
    ((v <<< a).extractLsb' (128 - w) w).extractLsb' p l = ((v <<< (a + (w - p - l))) >>> (128 - l)).setWidth l := by
  rw [BitVec.setWidth_ushiftRight_eq_extractLsb]
  refine (window_eq (by omega) fun k hk => ?_).symm
  rw [BitVec.getMsbD_extractLsb', decide_eq_true hk, decide_eq_true (by omega), Bool.true_and, Bool.true_and,
    window_getMsbD v h (by omega)]
  congr 1; omega

/-- A value shifted up to the window from address bit `a` on, bit by bit. -/
theorem setWidth_shiftLeft_getMsbD {a w m : Nat} (v : BitVec w) (h : a + w ≤ 128) :
    (v.setWidth 128 <<< (128 - w - a)).getMsbD m = (decide (a ≤ m) && v.getMsbD (m - a)) := by
  rw [BitVec.getMsbD_shiftLeft, BitVec.getMsbD_setWidth, show m + (128 - w - a) + w - 128 = m - a by omega,
    decide_eq_decide.mpr (show 128 - w ≤ m + (128 - w - a) ↔ a ≤ m by omega)]

/-- `mask128` reads the first `l` bits only. -/
theorem mask128_congr {u v : Addr} {l : Nat} (hl : l ≤ 128) (h : ∀ m, m < l → u.getMsbD m = v.getMsbD m) :
    mask128 u l = mask128 v l := by
  refine Addr.ext_msb fun m _ => ?_
  rw [mask128_getMsbD u hl, mask128_getMsbD v hl]
  by_cases hm : m < l
  · rw [h m hm]
  · simp [hm]

/-! ### The layout of an encoded address -/

section Layout

variable {w : Nat} (p : Addr) (ip : BitVec 32) (v : BitVec w) (l : Nat)

/-- Address bit `m` of the layout of both encoders (42_dst.md R141; 43_src.md R160, before the trailer write): `l` bits of PFX,
the IPv4 payload and a value of `w` bits side by side, and zeros after them. `execDstEncode_ok` and `execSrcEncode_ok` answer it. -/
def layoutBit (m : Nat) : Bool :=
  if m < l then p.getMsbD m
  else if m < l + 32 then ip.getMsbD (m - l)
  else if m < l + 32 + w then v.getMsbD (m - (l + 32)) else false

variable {l} {m : Nat}

theorem layoutBit_prefix (hm : m < l) : layoutBit p ip v l m = p.getMsbD m := if_pos hm

theorem layoutBit_ipv4 (hm : m < 32) : layoutBit p ip v l (l + m) = ip.getMsbD m := by
  rw [layoutBit, if_neg (by omega), if_pos (by omega), Nat.add_sub_cancel_left]

theorem layoutBit_value (hm : m < w) : layoutBit p ip v l (l + 32 + m) = v.getMsbD m := by
  rw [layoutBit, if_neg (by omega), if_neg (by omega), if_pos (by omega), Nat.add_sub_cancel_left]

theorem layoutBit_padding (hm : l + 32 + w ≤ m) : layoutBit p ip v l m = false := by
  rw [layoutBit, if_neg (by omega), if_neg (by omega), if_neg (by omega)]

/-- The layout as an OR of its parts, each of which is 0 outside its place. -/
theorem layoutBit_eq_or : layoutBit p ip v l m =
    ((p.getMsbD m && decide (m < l)) || (decide (l ≤ m) && ip.getMsbD (m - l)) ||
      (decide (l + 32 ≤ m) && v.getMsbD (m - (l + 32)))) := by
  have hip : l + 32 ≤ m → ip.getMsbD (m - l) = false := fun hm => BitVec.getMsbD_of_ge _ _ (by omega)
  have hv : l + 32 + w ≤ m → v.getMsbD (m - (l + 32)) = false := fun hm => BitVec.getMsbD_of_ge _ _ (by omega)
  unfold layoutBit
  split
  case isTrue hp => simp [hp, show ¬ l ≤ m by omega, show ¬ l + 32 ≤ m by omega]
  case isFalse hp =>
    split
    case isTrue hlow => simp [hp, show l ≤ m by omega, show ¬ l + 32 ≤ m by omega]
    case isFalse hlow =>
      split
      case isTrue hin => simp [hp, hip (by omega), show l + 32 ≤ m by omega]
      case isFalse hout => simp [hp, hip (by omega), hv (by omega)]

variable {p ip v} {b : Addr}

/-- The number that the parts of a layout make. -/
theorem eq_or_of_layout (h : l + 32 + w ≤ 128) (hbits : ∀ m, m < 128 → b.getMsbD m = layoutBit p ip v l m) :
    b = mask128 p l ||| (ip.setWidth 128 <<< (96 - l)) ||| (v.setWidth 128 <<< (96 - w - l)) := by
  refine Addr.ext_msb fun m hm => ?_
  rw [hbits m hm, layoutBit_eq_or, show 96 - w - l = 128 - w - (l + 32) by omega, BitVec.getMsbD_or, BitVec.getMsbD_or,
    mask128_getMsbD p (by omega), setWidth_shiftLeft_getMsbD (w := 32) ip (by omega), setWidth_shiftLeft_getMsbD v h]

/-- The layout read back: its first `l` bits and its two windows hold the parts. -/
theorem windows_of_layout (h : l + 32 + w ≤ 128) (hbits : ∀ m, m < 128 → b.getMsbD m = layoutBit p ip v l m) :
    mask128 b l = mask128 p l ∧ (b <<< l).extractLsb' 96 32 = ip ∧ (b <<< (l + 32)).extractLsb' (128 - w) w = v := by
  refine ⟨mask128_congr (by omega) fun m hm => ?_, window_eq (by omega) fun k hk => ?_, window_eq (by omega) fun k hk => ?_⟩
  · rw [hbits m (by omega), layoutBit_prefix p ip v hm]
  · rw [hbits _ (by omega), layoutBit_ipv4 p ip v hk]
  · rw [hbits _ (by omega), layoutBit_value p ip v hk]

end Layout

/-! ### Where a command fails -/

/-- The whole next state of a failure, its STATUS written out: CODE of the kind under STICKY (60_exceptions.md R203). -/
theorem exec_fails {i : Instr} {s : State} {k : ErrKind} (h : errorTable i s = some k) :
    exec i s = .next { s with status := (s.status &&& 0x78#8) ||| (0x80#8 ||| k.code.setWidth 8) } := by
  rw [exec_of_errorTable_some h, fail_eq, statusAfterFail_eq, BitVec.or_assoc]

/-- CODE is 0 exactly where the error table names no kind. -/
theorem statusCode_eq_zero_iff {i : Instr} {s t : State} (h : exec i s = .next t) :
    statusCode t.status = 0 ↔ errorTable i s = none := by
  refine ⟨errorTable_eq_none_of_code h, fun hnone => ?_⟩
  rcases exec_next_cases h with ⟨k, hk, _⟩ | ⟨_, hcommit, _⟩
  · cases hnone.symm.trans hk
  · rw [hcommit]; exact statusCode_afterCommit _

theorem errorTable_dstEncode_eq_none {s : State} : errorTable .dstEncode s = none ↔ s.plen.toNat ≤ 56 := by
  unfold errorTable; grind

theorem errorTable_srcEncode_eq_none {s : State} : errorTable .srcEncode s = none ↔ s.plen.toNat ≤ 80 := by
  unfold errorTable; grind

/-- Settles O32: each range of lengths is one line of the error table. -/
theorem encodersRejectLengths : Obligations.EncodersRejectLengths := by
  intro s
  refine ⟨fun hlong => ⟨?_, ?_⟩, fun hlow hhigh => ?_, fun hlow hhigh => ?_⟩
  · exact exec_fails (i := .dstEncode) (k := .prefixLength) (if_pos hlong)
  · exact exec_fails (i := .srcEncode) (k := .prefixLength) (if_pos hlong)
  · exact exec_fails (i := .dstEncode) (k := .tooShortToMarshal) ((if_neg (by omega)).trans (if_pos hlow))
  · exact exec_fails (i := .srcEncode) (k := .tooShortToMarshal) ((if_neg (by omega)).trans (if_pos hlow))

/-- Settles O35: each range of lengths is one line of the error table. -/
theorem decodersRejectLengths : Obligations.DecodersRejectLengths := by
  intro b s
  refine ⟨fun hlong => ?_, fun hzero => ?_, fun hlong => ?_, fun hzero => ?_, fun hlong => ?_⟩
  · exact exec_fails (i := .dstDecode b) (k := .outOfRange) (if_pos hlong)
  · exact exec_fails (i := .srcDecodeBasic b) (k := .prefixLength) (if_pos hzero)
  · exact exec_fails (i := .srcDecodeBasic b) (k := .outOfRange) ((if_neg (by omega)).trans (if_pos hlong))
  · exact exec_fails (i := .srcDecodeVendor) (k := .prefixLength) (if_pos hzero)
  · exact exec_fails (i := .srcDecodeVendor) (k := .outOfRange) ((if_neg (by omega)).trans (if_pos hlong))

/-! ### DST_ENCODE -/

theorem argsBlock_eq_append (s : State) : argsBlock s = s.qfi ++ s.rf ++ s.uf ++ s.pduid := argsSer_eq_append ..

/-- Settles O25: the bits that DST_ENCODE leaves are the layout's, so BUF is the number the parts make. -/
theorem dstEncodeWritesBuf : Obligations.DstEncodeWritesBuf := by
  intro s h
  obtain ⟨b, hb, hbits⟩ := execDstEncode_ok s h
  rw [← argsBlock_eq_append, ← statusAfterCommit_eq]
  rw [eq_or_of_layout (w := 40) (by simp only [prefixLen]; omega) hbits] at hb
  exact hb

/-- Settles O26: the error table tells where the layout fits, and each part of it is one case of the bits DST_ENCODE leaves. -/
theorem dstLayout : Obligations.DstLayout := by
  intro s
  rw [← argsBlock_eq_append]
  obtain ⟨t, ht, -⟩ := exec_next .dstEncode s
  refine ⟨t, ht, ?_, fun h => ?_⟩
  · rw [statusCode_eq_zero_iff ht, errorTable_dstEncode_eq_none]; omega
  · obtain ⟨b, hb, hbits⟩ := execDstEncode_ok s (show s.plen.toNat ≤ 56 by omega)
    obtain rfl := Host.Outcome.next.inj (hb.symm.trans ht)
    exact ⟨fun m hm => (hbits m (by omega)).trans (layoutBit_prefix _ _ _ hm),
      fun m hm => (hbits _ (by omega)).trans (layoutBit_ipv4 _ _ _ hm),
      fun m hm => (hbits _ (by omega)).trans (layoutBit_value _ _ _ hm),
      fun m hlow hm => (hbits m hm).trans (layoutBit_padding _ _ _ hlow)⟩

/-- The bytes of a value are INSERT's payload where DIN holds the value left-justified (10_state.md R24). -/
theorem payload_of_din_eq {n w : Nat} {s : State} {v : BitVec w} (hw : w = 8 * n) (hn : n ≤ 16)
    (hdin : s.din = v.setWidth 128 <<< (128 - w)) : payload s n = bytesOf n v := by
  subst hw
  refine List.map_congr_left fun i hi => Byte.ext_msb fun j hj => ?_
  have hin : i < n := List.mem_range.mp hi
  have hbit := setWidth_shiftLeft_getMsbD (a := 0) (m := 8 * i + j) v (by omega)
  rw [byte_getMsbD _ (by omega) hj, hdin, ← Nat.sub_zero (128 - 8 * n), hbit, BitVec.getMsbD_extractLsb', decide_eq_true hj,
    decide_eq_true (by omega), decide_eq_true (by omega), Bool.true_and, Bool.true_and, Bool.true_and]
  congr 1; omega

/-- INSERT with a value left-justified in DIN appends the bytes of that value. -/
theorem execInsert_of_app {e n w : Nat} {s : State} {v : BitVec w} {b : Addr} (hw : w = 8 * n) (hfit : e + 8 * n ≤ 128)
    (hdin : s.din = v.setWidth 128 <<< (128 - w)) (h : app s.buf e (bytesOf n v) = .ok b) :
    execInsert e n s = commit { s with buf := b } := by
  rw [execInsert, if_neg (Nat.not_lt.mpr ((ceilDiv8_add_le e n).mpr hfit)), payload_of_din_eq hw (by omega) hdin, h]

theorem execDstEncode_of_app {s : State} {b₁ b₂ : Addr} (hlen : prefixLen s ≤ 128)
    (h₁ : app (prefixBase s) (prefixLen s) (ipv4Bytes s) = .ok b₁)
    (h₂ : app b₁ (prefixLen s + 32) (bytesOf 5 (argsBlock s)) = .ok b₂) : execDstEncode s = commit { s with buf := b₂ } := by
  rw [execDstEncode, if_neg (Nat.not_lt.mpr hlen), h₁]
  simp only [h₂]

/-- Settles O29: with the two payloads in DIN, the two INSERTs make the two calls of `app` that DST_ENCODE makes. -/
theorem dstEncodeIsTwoInserts : Obligations.DstEncodeIsTwoInserts := by
  intro s h
  have hlen : prefixLen s ≤ 56 := h
  obtain ⟨b₁, b₂, h₁, h₂, -⟩ := app_two_ok (n := 5) rfl s (argsBlock s) (by omega)
  exact ⟨_, _, _, _, rfl, execInsert_of_app (v := s.ipv4) rfl (by omega) rfl h₁,
    execInsert_of_app (v := argsBlock s) rfl (by omega) rfl h₂, execDstEncode_of_app (by omega) h₁ h₂, rfl⟩

/-! ### The encoders and the bits of PFX past PLEN -/

section PrefixUpdate

variable {s : State} {p : Addr} (hp : ∀ m, m < s.plen.toNat → p.getMsbD m = s.pfx.getMsbD m)

include hp

theorem execDstEncode_pfx_update :
    ∃ t, exec .dstEncode s = .next t ∧ exec .dstEncode { s with pfx := p } = .next { t with pfx := p } := by
  cases hk : errorTable .dstEncode s with
  | some k => exact ⟨_, exec_of_errorTable_some hk, exec_of_errorTable_some (s := { s with pfx := p }) hk⟩
  | none =>
    have hlen := errorTable_dstEncode_eq_none.mp hk
    have hmask : mask128 p s.plen.toNat = mask128 s.pfx s.plen.toNat := mask128_congr (by omega) hp
    refine ⟨_, dstEncodeWritesBuf s hlen, ?_⟩
    rw [dstEncodeWritesBuf { s with pfx := p } hlen, hmask]

theorem execSrcEncode_pfx_update :
    ∃ t, exec .srcEncode s = .next t ∧ exec .srcEncode { s with pfx := p } = .next { t with pfx := p } := by
  cases hk : errorTable .srcEncode s with
  | some k => exact ⟨_, exec_of_errorTable_some hk, exec_of_errorTable_some (s := { s with pfx := p }) hk⟩
  | none =>
    have hlen : prefixLen s ≤ 80 := errorTable_srcEncode_eq_none.mp hk
    obtain ⟨b, hb, hbits⟩ := execSrcEncode_ok s hlen
    obtain ⟨b', hb', hbits'⟩ := execSrcEncode_ok { s with pfx := p } hlen
    have hmask : mask128 p (prefixLen s) = mask128 s.pfx (prefixLen s) := mask128_congr (by omega) hp
    have hsame : b' = b := by
      rw [eq_or_of_layout (w := 16) (by omega) hbits, ← hmask]
      exact eq_or_of_layout (w := 16) (Nat.add_le_add_right hlen 48) hbits'
    exact ⟨_, hb, hsame ▸ hb'⟩

end PrefixUpdate

/-- Settles O38: an encoder that succeeds starts from the masked PFX, and the error table does not read PFX. -/
theorem encodersMaskThePrefix : Obligations.EncodersMaskThePrefix :=
  fun _ _ hp => ⟨execDstEncode_pfx_update hp, execSrcEncode_pfx_update hp⟩

/-! ### DST_DECODE -/

/-- Settles O27: the four argument fields are parts of the window after the IPv4 payload's. -/
theorem dstDecodeWritesFields : Obligations.DstDecodeWritesFields := by
  intro b s h
  have field {p l : Nat} (hl : p + l ≤ 40) := extractLsb'_window (a := b + 32) (p := p) (l := l) s.buf (by omega) hl
  have hargs : argsDe ((s.buf <<< (b + 32)).extractLsb' 88 40) =
      (((s.buf <<< (b + 32)) >>> 122).setWidth 6, ((s.buf <<< (b + 38)) >>> 127).setWidth 1,
        ((s.buf <<< (b + 39)) >>> 127).setWidth 1, ((s.buf <<< (b + 40)) >>> 96).setWidth 32) := by
    simp only [argsDe, Prod.mk.injEq]
    exact ⟨field (by decide), field (by decide), field (by decide), field (by decide)⟩
  refine (execDstDecode_ok s h).trans ?_
  rw [commit_eq, setArgsFields_status, statusAfterCommit_eq, setArgsFields, hargs]
  simp only [BitVec.setWidth_ushiftRight_eq_extractLsb]

/-- The host's write of a command's word runs the command (30_encoding.md R66). -/
theorem hostWrite_encode {i : Instr} (h : i.wf = true) (s : State) :
    hostWrite 0x00 (encode i).toNat s = exec i { s with cmd := encode i } :=
  (takeInput_cmd (encode i) s).trans (runCommand_of_ok (decodeOfEncodeIsIdentity i h) s)

theorem encode_dstDecode_toNat {b : Nat} (h : b < 256) : (encode (.dstDecode b)).toNat = b * 2 ^ 8 + 0x6 := by
  rw [encode, packFields_toNat]
  simp [Instr.nbField, Instr.bitField, Instr.opc, Nat.mod_eq_of_lt h]

/-- Settles O28: the decoder's windows are those of the encoder's layout, and the argument codec is a bijection. -/
theorem destinationRoundTrip : Obligations.DestinationRoundTrip := by
  intro s h
  obtain ⟨b, hb, hbits⟩ := execDstEncode_ok { s with cmd := encode .dstEncode } h
  obtain ⟨hpfx, hipv4, hargs⟩ := windows_of_layout (w := 40) (show s.plen.toNat + 32 + 40 ≤ 128 by omega) hbits
  have hdecode := hostWrite_encode (i := .dstDecode s.plen.toNat) (bitFits_iff.mpr s.plen.isLt)
    { s with cmd := encode .dstEncode, buf := b, status := statusAfterCommit s.status }
  rw [encode_dstDecode_toNat s.plen.isLt] at hdecode
  have hfields : argsDe ((b <<< (s.plen.toNat + 32)).extractLsb' 88 40) = (s.qfi, s.rf, s.uf, s.pduid) :=
    (congrArg argsDe (hargs.trans (argsBlock_eq_append _))).trans (argsDe_append ..)
  refine ⟨_, _, (hostWrite_encode (i := .dstEncode) rfl s).trans hb, hdecode.trans (execDstDecode_ok _ h),
    statusCode_afterCommit _, hpfx, ?_, hipv4, ?_⟩
  · exact (BitVec.ofNat_toNat ..).trans (BitVec.setWidth_eq _)
  · exact ⟨congrArg (·.1) hfields, congrArg (·.2.1) hfields, congrArg (·.2.2.1) hfields, congrArg (·.2.2.2) hfields⟩

/-! ### The decoders and the bits they do not read -/

section BufUpdate

variable {s : State} {v : Addr}

/-- A decoder that fails in both states fails alike. -/
theorem exec_fail_buf_update {i : Instr} {k : ErrKind} (h : errorTable i s = some k)
    (h' : errorTable i { s with buf := v } = some k) :
    ∃ t, exec i s = .next t ∧ exec i { s with buf := v } = .next { t with buf := v } :=
  ⟨_, exec_of_errorTable_some h, exec_of_errorTable_some h'⟩

theorem execDstDecode_buf_update {b : Nat} (hb : b ≤ 56) (hv : ∀ m, m < b + 72 → v.getMsbD m = s.buf.getMsbD m) :
    ∃ t, execDstDecode b s = .next t ∧ execDstDecode b { s with buf := v } = .next { t with buf := v } := by
  have hpfx : mask128 v b = mask128 s.buf b := mask128_congr (by omega) fun m hm => hv m (by omega)
  have hipv4 : (v <<< b).extractLsb' 96 32 = (s.buf <<< b).extractLsb' 96 32 :=
    window_congr (by omega) fun m _ hm => hv m (by omega)
  have hargs : (v <<< (b + 32)).extractLsb' 88 40 = (s.buf <<< (b + 32)).extractLsb' 88 40 :=
    window_congr (by omega) fun m _ hm => hv m (by omega)
  refine ⟨_, execDstDecode_ok s hb, (execDstDecode_ok { s with buf := v } hb).trans ?_⟩
  simp only [hpfx, hipv4, hargs]
  rfl

theorem execSrcDecodeBasic_buf_update {b : Nat} (hb : b ≤ 96) (hv : ∀ m, m < b + 32 → v.getMsbD m = s.buf.getMsbD m) :
    ∃ t, execSrcDecodeBasic b s = .next t ∧ execSrcDecodeBasic b { s with buf := v } = .next { t with buf := v } := by
  by_cases h0 : b = 0
  · exact exec_fail_buf_update (i := .srcDecodeBasic b) (if_pos h0) (if_pos h0)
  · have hlow : 1 ≤ b := by omega
    have hpfx : mask128 v b = mask128 s.buf b := mask128_congr (by omega) fun m hm => hv m (by omega)
    have hipv4 : (v <<< b).extractLsb' 96 32 = (s.buf <<< b).extractLsb' 96 32 :=
      window_congr (by omega) fun m _ hm => hv m (by omega)
    refine ⟨_, execSrcDecodeBasic_ok s hlow hb, (execSrcDecodeBasic_ok { s with buf := v } hlow hb).trans ?_⟩
    simp only [hpfx, hipv4]
    rfl

theorem execSrcDecodeVendor_buf_update (hl : vendorLen s.buf ≤ 73) (hlen : vendorLen v = vendorLen s.buf)
    (hv : ∀ m, m < vendorLen s.buf + 48 → v.getMsbD m = s.buf.getMsbD m) :
    ∃ t, execSrcDecodeVendor s = .next t ∧ execSrcDecodeVendor { s with buf := v } = .next { t with buf := v } := by
  by_cases h0 : vendorLen s.buf = 0
  · exact ⟨_, if_pos h0, if_pos (hlen.trans h0)⟩
  · have hlow : 1 ≤ vendorLen s.buf := by omega
    have hnext := execSrcDecodeVendor_ok { s with buf := v } (hlow.trans_eq hlen.symm) (hlen.trans_le hl)
    refine ⟨_, execSrcDecodeVendor_ok s hlow hl, hnext.trans ?_⟩
    generalize vendorLen s.buf = l at *
    have hpfx : mask128 v l = mask128 s.buf l := mask128_congr (by omega) fun m hm => hv m (by omega)
    have hipv4 : (v <<< l).extractLsb' 96 32 = (s.buf <<< l).extractLsb' 96 32 :=
      window_congr (by omega) fun m _ hm => hv m (by omega)
    have hport : (v <<< (l + 32)).extractLsb' 112 16 = (s.buf <<< (l + 32)).extractLsb' 112 16 :=
      window_congr (by omega) fun m _ hm => hv m (by omega)
    simp only [hlen, hpfx, hipv4, hport]
    rfl

end BufUpdate

/-- Settles O37: a decoder's length and windows lie in the bits that are the same. -/
theorem decodersIgnoreUnspecifiedBits : Obligations.DecodersIgnoreUnspecifiedBits := by
  refine ⟨fun b s v => execDstDecode_buf_update, fun b s v => execSrcDecodeBasic_buf_update, fun s v => ?_⟩
  rw [← vendorLen_eq, ← vendorLen_eq]
  exact execSrcDecodeVendor_buf_update

end Sys2Proof.Machine

/-! # The statements about the source address (43_src.md)

SRC_ENCODE makes the layout of DST_ENCODE with the port in place of the argument block (`execSrcEncode_ok`), and then writes the length
into the trailer. The trailer write keeps the first 121 address bits (`setTrailer_getMsbD`), so the windows that end there are those of
the layout, and the length field holds the length (`vendorLen_setTrailer`). -/

/-! ### The trailer write -/

namespace Sys2Proof.Machine

/-- The trailer write touches the last 7 address bits only (43_src.md R162). -/
theorem setTrailer_getMsbD {m : Nat} (b : Addr) (l : Nat) (hm : m < 121) : (setTrailer b l).getMsbD m = b.getMsbD m := by
  have hmask : (0x7F#128).getMsbD m = decide (121 ≤ m ∧ m < 128) :=
    windowMask_getMsbD (e := 121) (w := 7) (by decide) (by omega)
  rw [setTrailer, BitVec.getMsbD_or, BitVec.getMsbD_and, BitVec.getMsbD_not, hmask, BitVec.getMsbD_setWidth]
  simp [show ¬ 121 ≤ m by omega, show m < 128 by omega]

/-- The last 7 address bits are replaced by the length, whatever they were. -/
theorem vendorLen_setTrailer {l : Nat} (b : Addr) (hl : l < 128) : vendorLen (setTrailer b l) = l := by
  have hmask : (~~~0x7F#128).setWidth 7 = 0 := rfl
  have hfield : (setTrailer b l).setWidth 7 = BitVec.ofNat 7 l := by
    rw [setTrailer, BitVec.setWidth_or, BitVec.setWidth_and, hmask]
    simp
  rw [vendorLen_eq, ← BitVec.toNat_setWidth (i := 7), hfield, BitVec.toNat_ofNat, Nat.mod_eq_of_lt hl]

theorem mask128_setTrailer {n : Nat} (b : Addr) (l : Nat) (hn : n ≤ 121) : mask128 (setTrailer b l) n = mask128 b n :=
  mask128_congr (by omega) fun m hm => setTrailer_getMsbD b l (by omega)

theorem window_setTrailer {a w : Nat} (b : Addr) (l : Nat) (h : a + w ≤ 121) :
    (setTrailer b l <<< a).extractLsb' (128 - w) w = (b <<< a).extractLsb' (128 - w) w :=
  window_congr (by omega) fun m _ hm => setTrailer_getMsbD b l (by omega)

/-- A length below 128 is its own low 7 bits, so that the trailer write ORs in all of PLEN (43_src.md R162). -/
theorem setTrailer_plen {p : BitVec 8} (b : Addr) (hp : p.toNat < 128) :
    setTrailer b p.toNat = (b &&& ~~~0x7F#128) ||| p.setWidth 128 := by
  have hlow : (BitVec.ofNat 7 p.toNat).setWidth 128 = p.setWidth 128 := by
    refine BitVec.eq_of_toNat_eq ?_
    rw [BitVec.toNat_setWidth, BitVec.toNat_setWidth, BitVec.toNat_ofNat, Nat.mod_eq_of_lt hp]
  rw [setTrailer, hlow]

/-! ### SRC_ENCODE -/

/-- Settles O30: the layout is the number its parts make, and the trailer write ORs in PLEN. -/
theorem srcEncodeWritesBuf : Obligations.SrcEncodeWritesBuf := by
  intro s h
  obtain ⟨b, hb, hbits⟩ := execSrcEncode_ok s h
  have hlayout := eq_or_of_layout (w := 16) (show s.plen.toNat + 32 + 16 ≤ 128 by omega) hbits
  rw [← statusAfterCommit_eq, ← setTrailer_plen _ (by omega), ← hlayout]
  exact hb

/-- Address bit 120, the last before the trailer: a port bit where the port reaches it, else padding. -/
theorem layoutBit_120 {l : Nat} (p : Addr) (ip : BitVec 32) (port : BitVec 16) (hl : l ≤ 80) :
    layoutBit p ip port l 120 = (decide (73 ≤ l) && port.getMsbD (88 - l)) := by
  by_cases h : 73 ≤ l
  · have hport := layoutBit_value p ip port (l := l) (m := 88 - l) (by omega)
    rw [show l + 32 + (88 - l) = 120 by omega] at hport
    rw [hport, decide_eq_true h, Bool.true_and]
  · rw [layoutBit_padding p ip port (by omega), decide_eq_false h, Bool.false_and]

/-- Settles O31: success means that the layout fits; the trailer is the length, and bit 120, which it keeps, is the layout's. -/
theorem srcTrailerHoldsTheLength : Obligations.SrcTrailerHoldsTheLength := by
  intro s t hexec hcode
  have hlen := errorTable_srcEncode_eq_none.mp (errorTable_eq_none_of_code hexec hcode)
  obtain ⟨b, hb, hbits⟩ := execSrcEncode_ok s hlen
  obtain rfl := Host.Outcome.next.inj (hb.symm.trans hexec)
  refine ⟨hlen, (vendorLen_eq _).symm.trans (vendorLen_setTrailer b (Nat.lt_of_le_of_lt hlen (by decide))), ?_⟩
  calc (setTrailer b (prefixLen s)).getMsbD 120
      = b.getMsbD 120 := setTrailer_getMsbD _ _ (by decide)
    _ = layoutBit s.pfx s.ipv4 s.port s.plen.toNat 120 := hbits 120 (by decide)
    _ = _ := layoutBit_120 _ _ _ hlen

/-! ### The decoders -/

/-- Settles O33: the IPv4 payload is a window of BUF. -/
theorem srcDecodeBasicWritesFields : Obligations.SrcDecodeBasicWritesFields := by
  intro b s hlow hhigh
  rw [BitVec.setWidth_ushiftRight_eq_extractLsb, ← statusAfterCommit_eq]
  exact execSrcDecodeBasic_ok s hlow hhigh

/-- Settles O34: the length is the low 7 bits of BUF, and the IPv4 payload and the port are windows of it. -/
theorem srcDecodeVendorWritesFields : Obligations.SrcDecodeVendorWritesFields := by
  intro s
  rw [← vendorLen_eq, BitVec.setWidth_ushiftRight_eq_extractLsb, BitVec.setWidth_ushiftRight_eq_extractLsb,
    ← statusAfterCommit_eq]
  exact execSrcDecodeVendor_ok s

/-! ### The round trips -/

/-- The host's write of SRC_ENCODE leaves in BUF an address in which a decoder finds the masked PFX, the IPv4 payload and the
length, and the port too where it ends before the trailer (43_src.md R161, R163). -/
theorem hostWrite_srcEncode (s : State) (h : s.plen.toNat ≤ 80) :
    ∃ b, hostWrite 0x00 0x7 s = commit { s with cmd := encode .srcEncode, buf := b } ∧
      mask128 b s.plen.toNat = mask128 s.pfx s.plen.toNat ∧ vendorLen b = s.plen.toNat ∧
      (b <<< s.plen.toNat).extractLsb' 96 32 = s.ipv4 ∧
      (s.plen.toNat ≤ 73 → (b <<< (s.plen.toNat + 32)).extractLsb' 112 16 = s.port) := by
  obtain ⟨b, hb, hbits⟩ := execSrcEncode_ok { s with cmd := encode .srcEncode } h
  obtain ⟨hpfx, hipv4, hport⟩ := windows_of_layout (w := 16) (show s.plen.toNat + 32 + 16 ≤ 128 by omega) hbits
  exact ⟨_, (hostWrite_encode (i := .srcEncode) rfl s).trans hb, (mask128_setTrailer b _ (by omega)).trans hpfx,
    vendorLen_setTrailer b (by simp only [prefixLen]; omega), (window_setTrailer (w := 32) b _ (by omega)).trans hipv4,
    fun hfit => (window_setTrailer (w := 16) b _ (by omega)).trans hport⟩

theorem encode_srcDecodeBasic_toNat {b : Nat} (h : b < 256) : (encode (.srcDecodeBasic b)).toNat = b * 2 ^ 8 + 0x8 := by
  rw [encode, packFields_toNat]
  simp [Instr.nbField, Instr.bitField, Instr.opc, Nat.mod_eq_of_lt h]

/-- Settles O36: the decoders' windows are those of the encoder's layout, which the trailer write keeps up to length 73, and without
the port up to length 80. -/
theorem sourceRoundTrips : Obligations.SourceRoundTrips := by
  refine ⟨fun s hlow hhigh => ?_, fun s hlow hhigh => ?_⟩
  · obtain ⟨b, hb, hpfx, hlen, hipv4, hport⟩ := hostWrite_srcEncode s (by omega)
    have hdecode := hostWrite_encode (i := .srcDecodeVendor) rfl
      { s with cmd := encode .srcEncode, buf := b, status := statusAfterCommit s.status }
    have hfields := execSrcDecodeVendor_ok
      { s with cmd := encode .srcDecodeVendor, buf := b, status := statusAfterCommit s.status }
      (hlow.trans_eq hlen.symm) (hlen.trans_le hhigh)
    simp only [hlen, hpfx, hipv4, hport hhigh, BitVec.ofNat_toNat, BitVec.setWidth_eq] at hfields
    exact ⟨_, _, hb, hdecode.trans hfields, statusCode_afterCommit _, rfl, rfl, rfl, rfl⟩
  · obtain ⟨b, hb, hpfx, -, hipv4, -⟩ := hostWrite_srcEncode s hhigh
    have hdecode := hostWrite_encode (i := .srcDecodeBasic s.plen.toNat) (bitFits_iff.mpr s.plen.isLt)
      { s with cmd := encode .srcEncode, buf := b, status := statusAfterCommit s.status }
    rw [encode_srcDecodeBasic_toNat s.plen.isLt] at hdecode
    exact ⟨_, _, hb, hdecode.trans (execSrcDecodeBasic_ok _ hlow (by omega)), statusCode_afterCommit _, hpfx,
      (BitVec.ofNat_toNat ..).trans (BitVec.setWidth_eq _), hipv4, rfl, eq_comm⟩

end Sys2Proof.Machine

/-! # The statements about the end of a command (60_exceptions.md)

A command fails with the kind the error table names, or commits where the table names none (`exec_next_cases`). What the two ends leave
of STATUS is said once for each in the laws of STATUS. -/

namespace Sys2Proof.Machine

/-! ### The error table -/

/-- Settles O40: the table's kind is the failure's, its `none` is a commit, and a word with no command fails as illegal. -/
theorem commandsFollowTheErrorTable : Obligations.CommandsFollowTheErrorTable := by
  refine ⟨fun i s k hk => ⟨?_, (errorTable_kinds hk).1⟩, fun i s hnone => ?_, fun w s ⟨e, he⟩ => ?_⟩
  · rw [exec_of_errorTable_some hk, fail_eq, statusAfterFail_eq]
  · obtain ⟨t, ht, -⟩ := exec_next i s
    rcases exec_next_cases ht with ⟨k, hk, _⟩ | ⟨_, hcommit, _⟩
    · cases hnone.symm.trans hk
    · exact ⟨t, ht, hcommit.trans (statusAfterCommit_eq _)⟩
  · rw [runCommand_of_error he, fail_eq, statusAfterFail_illegalCmd]

/-! ### What each end leaves -/

/-- Settles O41: CODE is not 0 after a failure only, and a failure writes CODE and STICKY. -/
theorem failureWritesOnlyStatus : Obligations.FailureWritesOnlyStatus := by
  intro i s t h hcode
  rcases exec_next_cases h with ⟨k, _, rfl⟩ | ⟨_, hcommit, _⟩
  · exact ⟨statusSticky_afterFail .., statusReserved_afterFail .., rfl⟩
  · exact absurd (hcommit ▸ statusCode_afterCommit s.status) hcode

theorem statusReserved_toNat (st : BitVec 8) : (statusReserved st).toNat = st.toNat / 2 ^ 3 % 2 ^ 4 := by
  rw [statusReserved, BitVec.extractLsb'_toNat, Nat.shiftRight_eq_div_pow]

/-- A read of STATUS shows 0 in the reserved bits, whatever STATUS holds (10_state.md R22). -/
theorem statusReserved_statusRead : ∀ st : BitVec 8, statusReserved (statusRead st) = 0 := by decide

/-- Settles O42: CODE is 0 after a commit only, which keeps STICKY and the reserved bits; a read masks these. -/
theorem successKeepsSticky : Obligations.SuccessKeepsSticky := by
  intro i s t h hcode
  have hread : readReg .status t / 2 ^ 3 % 2 ^ 4 = 0 := by
    rw [readReg, ← statusReserved_toNat, statusReserved_statusRead]
    rfl
  rcases exec_next_cases h with ⟨k, hk, _⟩ | ⟨_, hcommit, _⟩
  · cases (errorTable_eq_none_of_code h hcode).symm.trans hk
  · rw [hcommit]
    exact ⟨statusSticky_afterCommit _, statusReserved_afterCommit _, hread⟩

end Sys2Proof.Machine

/-! # The statements about reset (70_reset_and_hazards.md)

The commands on the reset values follow from the closed form of each command: every part of what a success writes is 0, which the
result register already holds, so the commit leaves the whole state as it was. -/

namespace Sys2Proof.Machine

/-! ### Reset itself -/

/-- Settles O53: `resetBlock` takes the registers from the reset state, each of which reads 0 there. -/
theorem resetZeroesEveryRegister : Obligations.ResetZeroesEveryRegister := by
  refine ⟨fun _ => rfl, fun r => ?_⟩
  cases r <;> rfl

/-- The base case of the invariant that every step keeps (O55). -/
theorem statusLegal_reset : StatusLegal State.reset := ⟨by decide, by decide⟩

/-- Settles O56: STATUS is legal, and nothing waits that could be too wide. -/
theorem resetIsSafe : Obligations.ResetIsSafe := ⟨statusLegal_reset, fun _ ha => absurd ha List.not_mem_nil⟩

/-! ### The commands on the reset values -/

/-- A window of zeros put into zeros. -/
theorem putWindow_zero (e n : Nat) : putWindow 0 e n 0 = 0 := by
  unfold putWindow
  split <;> simp

theorem exec_extract_reset {b n : Nat} (h : b + 8 * n ≤ 128) : exec (.extract b n) State.reset = .next State.reset := by
  have hdout : mask128 (State.reset.buf <<< b) (8 * n) = 0 := by simp [State.reset, mask128]
  refine (execExtract_ok State.reset h).trans ?_
  rw [hdout]
  rfl

theorem exec_insert_reset {e n : Nat} (h : e + 8 * n ≤ 128) : exec (.insert e n) State.reset = .next State.reset := by
  have hdin : State.reset.din >>> (128 - 8 * n) = 0 := BitVec.zero_ushiftRight
  refine (execInsert_eq_putWindow State.reset h).trans ?_
  rw [hdin]
  exact congrArg (fun b => commit { State.reset with buf := b }) (putWindow_zero e n)

/-- ILLEGAL_CMD is no legal command's end: the error table does not name it (60_exceptions.md R202). -/
theorem statusCode_ne_illegalCmd {i : Instr} {s t : State} (h : exec i s = .next t) : statusCode t.status ≠ 5 := by
  rcases exec_next_cases h with ⟨k, hk, rfl⟩ | ⟨-, hcommit, -⟩
  · rw [statusCode_afterFail]
    cases k with
    | illegalCmd => exact absurd rfl (errorTable_kinds hk).2
    | _ => decide
  · rw [hcommit, statusCode_afterCommit]
    decide

/-- Settles O54: each command's closed form gives 0 on the reset values, the length field of BUF is 0, and a window that fits holds
zeros. -/
theorem commandsAfterReset : Obligations.CommandsAfterReset := by
  refine ⟨?_, ?_, ?_, fun b n h => ⟨exec_extract_reset h, exec_insert_reset h⟩, fun i => ?_⟩
  · exact dstEncodeWritesBuf State.reset (by decide)
  · exact srcEncodeWritesBuf State.reset (by decide)
  · exact exec_fails (i := .srcDecodeVendor) (s := State.reset) (k := .prefixLength) rfl
  · obtain ⟨t, ht, -⟩ := exec_next i State.reset
    exact ⟨t, ht, statusCode_ne_illegalCmd ht⟩

end Sys2Proof.Machine
